-- ==== Sys2Proof/Word.lean ====
section
/-! DEFINITION. The word and byte types (spec/00_scope.md R7, R10). -/

namespace Sys2Proof

/-- A Word: 32 bits, arithmetic modulo 2^32 (R10). -/
abbrev Word := BitVec 32

/-- One byte: what the host services move (R261). -/
abbrev Byte := BitVec 8

end Sys2Proof
end

