-- ==== Sys2Proof/Config.lean ====
section
/-! DEFINITION. What the spec fixes for every machine (spec/00_scope.md R7), what it leaves to the
platform (R8), and the free values. -/

namespace Sys2Proof

/-- What DIV or REM does with the one pair of operands the source gives no result for: no result, or a
32-bit value the platform names (spec/00_scope.md R8, spec/46_multiply_divide.md R250; log 3). -/
inductive OpenResult where
  /-- The model gives no result and the run ends as not modelled (R250's default). -/
  | refuse
  /-- The platform's 32-bit value. -/
  | value (w : Word)
  deriving DecidableEq, Repr

/-- The open parameters of R8. The program image is not here: it is what ROM holds. -/
structure Params where
  /-- ROM_WORDS. -/
  romWords : Nat
  /-- RAM_WORDS. -/
  ramWords : Nat
  /-- DIV_OVERFLOW. -/
  divOverflow : OpenResult
  /-- REM_OVERFLOW. -/
  remOverflow : OpenResult
  /-- STORE_CLOBBERS_RD. -/
  storeClobbersRd : Bool
  deriving DecidableEq, Repr

/-- R8's constraints: 1 ≤ ROM_WORDS ≤ 2^30 and 1 ≤ RAM_WORDS ≤ 2^20. -/
abbrev Params.Valid (p : Params) : Prop :=
  1 ≤ p.romWords ∧ p.romWords ≤ 2 ^ 30 ∧ 1 ≤ p.ramWords ∧ p.ramWords ≤ 2 ^ 20

namespace Config

/-- The parameters of `State.reset`. DESIGN CHOICE, unsafe: R8 leaves the sizes open and the model
takes the largest R8 admits (log 2). The other three have R8's defaults (log 3, log 4). -/
def resetParams : Params where
  romWords := 2 ^ 30
  ramWords := 2 ^ 20
  divOverflow := .refuse
  remOverflow := .refuse
  storeClobbersRd := false

/-- VIDEO_BASE, the first byte address of the video window (R7). -/
def videoBase : Word := 0x00400000#32

/-- BUBBLE, the ticks of halt after a redirect (R7). -/
def bubbleTicks : Fin 3 := 2

/-- Free value: a 32-bit value for DIV_OVERFLOW that nothing fixes. DESIGN CHOICE (log 3). -/
opaque divOverflow : Word

/-- Free value: a 32-bit value for REM_OVERFLOW that nothing fixes. DESIGN CHOICE (log 3). -/
opaque remOverflow : Word

/-- The parameters of a platform on which DIV and REM complete on R250's operands too, with values
nothing is known of: R8's other setting, at a free value each. DESIGN CHOICE (log 3). -/
def runningParams : Params :=
  { resetParams with divOverflow := .value divOverflow, remOverflow := .value remOverflow }

/-- Free value: the word the host returns to service 1 at end of input, by how many free values
were drawn before (spec/47_system.md R263; log 8). -/
opaque endOfInput : Nat → Word

/-- Free value: the unspecified word a store leaves in the register that bits 11:7 name, where
STORE_CLOBBERS_RD is true, by how many free values were drawn before
(spec/43_loads_and_stores.md R191; log 4). -/
opaque clobber : Nat → Word

end Config

end Sys2Proof
end

