-- ==== Sys2Proof/Machine/Flags.lean ====
section
/-! DEFINITION. There are no status flags and no condition codes (spec/10_state.md R35). What stands
in their place is here: the comparisons the branches decide by and the set-less-than instructions
write. -/

namespace Sys2Proof.Machine

/-- Equal in all 32 bits (spec/42_jumps_and_branches.md R165). -/
def condEq (a b : Word) : Bool := a == b

/-- Signed less than (R167). -/
def condLt (a b : Word) : Bool := decide (a.toInt < b.toInt)

/-- Unsigned less than (R169). -/
def condLtu (a b : Word) : Bool := decide (a.toNat < b.toNat)

/-- Not equal (R166). -/
def condNe (a b : Word) : Bool := !condEq a b

/-- Signed greater than or equal (R168). -/
def condGe (a b : Word) : Bool := decide (b.toInt ≤ a.toInt)

/-- Unsigned greater than or equal (R170). -/
def condGeu (a b : Word) : Bool := decide (b.toNat ≤ a.toNat)

/-- A condition as the word 1 or 0 (spec/44_alu_immediate.md R202, R203). -/
def boolWord (c : Bool) : Word := if c then 1 else 0

end Sys2Proof.Machine
end

