-- ==== Sys2Proof/Syntax.lean ====
section
/-! DEFINITION. The 47 instructions, one constructor per row of the opcode table
(spec/30_encoding.md R104), in the table's order. -/

namespace Sys2Proof

/-- A general register's index, 0 to 31 (spec/10_state.md R25). -/
abbrev RegIdx := Fin 32

/-- The distance of an immediate shift, 0 to 31 (spec/30_encoding.md R101). -/
abbrev ShiftAmount := Fin 32

/-- A decoded instruction (R102). An immediate is the decoded 32-bit Word, sign-extended for the
formats I, S, B and J and with twelve low zeros for U (R95 to R100). Operand order: rd, rs1, rs2,
immediate, each where the instruction has it. -/
inductive Instr where
  -- upper immediate (spec/41_upper_immediate.md)
  | lui (rd : RegIdx) (imm : Word)
  | auipc (rd : RegIdx) (imm : Word)
  -- control transfer (spec/42_jumps_and_branches.md)
  | jal (rd : RegIdx) (imm : Word)
  | jalr (rd rs1 : RegIdx) (imm : Word)
  | beq (rs1 rs2 : RegIdx) (imm : Word)
  | bne (rs1 rs2 : RegIdx) (imm : Word)
  | blt (rs1 rs2 : RegIdx) (imm : Word)
  | bge (rs1 rs2 : RegIdx) (imm : Word)
  | bltu (rs1 rs2 : RegIdx) (imm : Word)
  | bgeu (rs1 rs2 : RegIdx) (imm : Word)
  -- loads and stores (spec/43_loads_and_stores.md)
  | lb (rd rs1 : RegIdx) (imm : Word)
  | lh (rd rs1 : RegIdx) (imm : Word)
  | lw (rd rs1 : RegIdx) (imm : Word)
  | lbu (rd rs1 : RegIdx) (imm : Word)
  | lhu (rd rs1 : RegIdx) (imm : Word)
  | sb (rs1 rs2 : RegIdx) (imm : Word)
  | sh (rs1 rs2 : RegIdx) (imm : Word)
  | sw (rs1 rs2 : RegIdx) (imm : Word)
  -- immediate ALU (spec/44_alu_immediate.md)
  | addi (rd rs1 : RegIdx) (imm : Word)
  | slti (rd rs1 : RegIdx) (imm : Word)
  | sltiu (rd rs1 : RegIdx) (imm : Word)
  | xori (rd rs1 : RegIdx) (imm : Word)
  | ori (rd rs1 : RegIdx) (imm : Word)
  | andi (rd rs1 : RegIdx) (imm : Word)
  | slli (rd rs1 : RegIdx) (shamt : ShiftAmount)
  | srli (rd rs1 : RegIdx) (shamt : ShiftAmount)
  | srai (rd rs1 : RegIdx) (shamt : ShiftAmount)
  -- register ALU (spec/45_alu_register.md)
  | add (rd rs1 rs2 : RegIdx)
  | sub (rd rs1 rs2 : RegIdx)
  | sll (rd rs1 rs2 : RegIdx)
  | slt (rd rs1 rs2 : RegIdx)
  | sltu (rd rs1 rs2 : RegIdx)
  | xor (rd rs1 rs2 : RegIdx)
  | srl (rd rs1 rs2 : RegIdx)
  | sra (rd rs1 rs2 : RegIdx)
  | or (rd rs1 rs2 : RegIdx)
  | and (rd rs1 rs2 : RegIdx)
  -- multiply and divide (spec/46_multiply_divide.md)
  | mul (rd rs1 rs2 : RegIdx)
  | mulh (rd rs1 rs2 : RegIdx)
  | mulhsu (rd rs1 rs2 : RegIdx)
  | mulhu (rd rs1 rs2 : RegIdx)
  | div (rd rs1 rs2 : RegIdx)
  | divu (rd rs1 rs2 : RegIdx)
  | rem (rd rs1 rs2 : RegIdx)
  | remu (rd rs1 rs2 : RegIdx)
  -- system (spec/47_system.md)
  | ecall
  | ebreak
  deriving DecidableEq, Repr

end Sys2Proof
end

