-- ==== Sys2Proof/Machine/Alu.lean ====
section
/-! DEFINITION. The ALU's results: the register and immediate forms share them
(spec/44_alu_immediate.md, spec/45_alu_register.md), and the multiplier and divider
(spec/46_multiply_divide.md). Products and quotients are computed exactly in the integers and
narrowed at the end. -/

namespace Sys2Proof.Machine

/-- Sum modulo 2^32 (R201, R221). -/
def aluAdd (a b : Word) : Word := a + b

/-- Difference modulo 2^32 (R222). -/
def aluSub (a b : Word) : Word := a - b

/-- 1 if a < b, signed, else 0 (R202, R224). -/
def aluSlt (a b : Word) : Word := boolWord (condLt a b)

/-- 1 if a < b, unsigned, else 0 (R203, R225). -/
def aluSltu (a b : Word) : Word := boolWord (condLtu a b)

/-- Bitwise exclusive or (R204, R226). -/
def aluXor (a b : Word) : Word := a ^^^ b

/-- Bitwise or (R205, R229). -/
def aluOr (a b : Word) : Word := a ||| b

/-- Bitwise and (R206, R230). -/
def aluAnd (a b : Word) : Word := a &&& b

/-- Shift left; zeros enter at bit 0 (R207, R223). -/
def aluSll (a : Word) (n : ShiftAmount) : Word := a <<< n.val

/-- Logical shift right; zeros enter at bit 31 (R208, R227). -/
def aluSrl (a : Word) (n : ShiftAmount) : Word := a >>> n.val

/-- Arithmetic shift right; copies of bit 31 enter (R209, R228). -/
def aluSra (a : Word) (n : ShiftAmount) : Word := a.sshiftRight n.val

/-- Low 32 bits of the product (R241). -/
def aluMul (a b : Word) : Word := a * b

/-- Bits 63:32 of a product as a 64-bit two's-complement number (R242). -/
def productHigh (p : Int) : Word := (BitVec.ofInt 64 p).extractLsb' 32 32

/-- High half of signed times signed (R242). -/
def aluMulh (a b : Word) : Word := productHigh (a.toInt * b.toInt)

/-- High half of signed times unsigned (R243). -/
def aluMulhsu (a b : Word) : Word := productHigh (a.toInt * b.toNat)

/-- High half of unsigned times unsigned (R244). -/
def aluMulhu (a b : Word) : Word := productHigh (a.toNat * b.toNat)

/-- The operands whose signed quotient 2^31 no 32-bit value holds (R250). -/
def signedOverflow (a b : Word) : Bool := a == 0x80000000#32 && b == 0xFFFFFFFF#32

/-- The result R250's parameter gives: none for `refuse`. -/
def openResult : OpenResult → Option Word
  | .refuse => none
  | .value w => some w

/-- Signed quotient, rounded toward zero; 0x7FFFFFFF for divisor 0 (R245, R249). `none` where
DIV_OVERFLOW refuses. -/
def aluDiv (p : OpenResult) (a b : Word) : Option Word :=
  if b = 0 then some 0x7FFFFFFF#32
  else if signedOverflow a b then openResult p
  else some (BitVec.ofInt 32 (a.toInt.tdiv b.toInt))

/-- Unsigned quotient; 0xFFFFFFFF for divisor 0 (R246). -/
def aluDivu (a b : Word) : Word :=
  if b = 0 then 0xFFFFFFFF#32 else BitVec.ofNat 32 (a.toNat / b.toNat)

/-- Signed remainder, with the dividend's sign; the dividend for divisor 0 (R247, R249). `none`
where REM_OVERFLOW refuses. -/
def aluRem (p : OpenResult) (a b : Word) : Option Word :=
  if b = 0 then some a
  else if signedOverflow a b then openResult p
  else some (BitVec.ofInt 32 (a.toInt - b.toInt * a.toInt.tdiv b.toInt))

/-- Unsigned remainder; the dividend for divisor 0 (R248). -/
def aluRemu (a b : Word) : Word :=
  if b = 0 then a else BitVec.ofNat 32 (a.toNat % b.toNat)

end Sys2Proof.Machine
end

