-- ==== Sys2Proof/WellFormed.lean ====
section
/-! DEFINITION. Which instructions have an encoding: the immediate must be one its format can carry
(spec/30_encoding.md R96 to R100). Register indexes and shift amounts are in range by their type. -/

namespace Sys2Proof

/-- An I- or S-immediate: a 12-bit value, sign-extended (R96, R97). -/
def fitsI (imm : Word) : Bool := (imm.setWidth 12).signExtend 32 == imm

/-- A B-immediate: an even 13-bit value, sign-extended (R98). -/
def fitsB (imm : Word) : Bool := (imm.setWidth 13).signExtend 32 == imm && !imm.getLsbD 0

/-- A U-immediate: the low 12 bits are zero (R99). -/
def fitsU (imm : Word) : Bool := imm.setWidth 12 == 0

/-- A J-immediate: an even 21-bit value, sign-extended (R100). -/
def fitsJ (imm : Word) : Bool := (imm.setWidth 21).signExtend 32 == imm && !imm.getLsbD 0

/-- The instruction has an encoding. -/
def Instr.wf : Instr → Bool
  | .lui _ imm | .auipc _ imm => fitsU imm
  | .jal _ imm => fitsJ imm
  | .jalr _ _ imm => fitsI imm
  | .beq _ _ imm | .bne _ _ imm | .blt _ _ imm | .bge _ _ imm | .bltu _ _ imm | .bgeu _ _ imm =>
    fitsB imm
  | .lb _ _ imm | .lh _ _ imm | .lw _ _ imm | .lbu _ _ imm | .lhu _ _ imm => fitsI imm
  | .sb _ _ imm | .sh _ _ imm | .sw _ _ imm => fitsI imm
  | .addi _ _ imm | .slti _ _ imm | .sltiu _ _ imm | .xori _ _ imm | .ori _ _ imm
  | .andi _ _ imm => fitsI imm
  | .slli _ _ _ | .srli _ _ _ | .srai _ _ _ => true
  | .add _ _ _ | .sub _ _ _ | .sll _ _ _ | .slt _ _ _ | .sltu _ _ _ | .xor _ _ _ | .srl _ _ _
  | .sra _ _ _ | .or _ _ _ | .and _ _ _ => true
  | .mul _ _ _ | .mulh _ _ _ | .mulhsu _ _ _ | .mulhu _ _ _ | .div _ _ _ | .divu _ _ _
  | .rem _ _ _ | .remu _ _ _ => true
  | .ecall | .ebreak => true

end Sys2Proof
end

