-- ==== Sys2Proof/Decode.lean ====
section
/-! DEFINITION. The decoder (spec/30_encoding.md R92 to R113), total on any word and any bytes and
rejecting by name, and the encoder written from the same tables. -/

namespace Sys2Proof

/-! ## Bytes and words

The core moves whole words and has no byte order (spec/20_memory.md R67); where a word is laid out as
bytes it is little-endian, the spec's choice D19 (log 6). -/

/-- The word whose bytes, from the lowest address up, are `b0 b1 b2 b3`. -/
def wordOfBytes (b0 b1 b2 b3 : Byte) : Word := b3 ++ b2 ++ b1 ++ b0

/-- Byte `k` of a word, 0 the one at the lowest address. -/
def byteOfWord (w : Word) (k : Nat) : Byte := w.extractLsb' (8 * k) 8

/-! ## Fields (R92) -/

/-- `inst[6:0]`. -/
def opcodeOf (w : Word) : BitVec 7 := w.extractLsb' 0 7

/-- `inst[14:12]`. -/
def funct3Of (w : Word) : BitVec 3 := w.extractLsb' 12 3

/-- `inst[31:25]`. -/
def funct7Of (w : Word) : BitVec 7 := w.extractLsb' 25 7

/-- The register index that five bits name. -/
def regOfBits (b : BitVec 5) : RegIdx := b.toFin

/-- The five bits of a register index or shift amount. -/
def bitsOfReg (r : RegIdx) : BitVec 5 := BitVec.ofFin r

/-- `inst[11:7]`. -/
def rdOf (w : Word) : RegIdx := regOfBits (w.extractLsb' 7 5)

/-- `inst[19:15]`. -/
def rs1Of (w : Word) : RegIdx := regOfBits (w.extractLsb' 15 5)

/-- `inst[24:20]`. -/
def rs2Of (w : Word) : RegIdx := regOfBits (w.extractLsb' 20 5)

/-- The shift amount, `inst[24:20]`: the same bits as rs2 (R101). -/
def shamtOf (w : Word) : ShiftAmount := regOfBits (w.extractLsb' 20 5)

/-! ## Immediates (R95 to R100) -/

/-- `sext_12(inst[31:20])` (R96). -/
def immI (w : Word) : Word := (w.extractLsb' 20 12).signExtend 32

/-- `sext_12(inst[31:25] ++ inst[11:7])` (R97). -/
def immS (w : Word) : Word := (w.extractLsb' 25 7 ++ w.extractLsb' 7 5 : BitVec 12).signExtend 32

/-- `sext_13(inst[31] ++ inst[7] ++ inst[30:25] ++ inst[11:8] ++ 0b0)` (R98). -/
def immB (w : Word) : Word :=
  (w.extractLsb' 31 1 ++ w.extractLsb' 7 1 ++ w.extractLsb' 25 6 ++ w.extractLsb' 8 4 ++ 0#1
    : BitVec 13).signExtend 32

/-- `inst[31:12] ++ 0x000` (R99). -/
def immU (w : Word) : Word := w.extractLsb' 12 20 ++ 0#12

/-- `sext_21(inst[31] ++ inst[19:12] ++ inst[20] ++ inst[30:21] ++ 0b0)` (R100). -/
def immJ (w : Word) : Word :=
  (w.extractLsb' 31 1 ++ w.extractLsb' 12 8 ++ w.extractLsb' 20 1 ++ w.extractLsb' 21 10 ++ 0#1
    : BitVec 21).signExtend 32

/-! ## The decoder -/

/-- Why the decoder refuses: which part of the opcode map has no entry. Every one of these is the
DecodeFault of R113. -/
inductive DecodeReject where
  /-- Fewer bytes than an instruction has (never in a fetch, which reads a whole ROM word). -/
  | truncated
  /-- `inst[6:0]` is none of the ten opcodes of R103. -/
  | opcode
  /-- OP: no operation has this funct7 with this funct3 (R105). -/
  | opFunct
  /-- OP-IMM, funct3 101: funct7 is neither SRLI's nor SRAI's (R107). -/
  | opImmFunct7
  /-- BRANCH: funct3 010 or 011 (R108). -/
  | branchFunct3
  /-- LOAD: funct3 011, 110 or 111 (R109). -/
  | loadFunct3
  /-- STORE: funct3 011 to 111 (R109). -/
  | storeFunct3
  /-- SYSTEM: funct7 is neither 0 nor 1 (R110). -/
  | systemFunct7
  deriving DecidableEq, Repr

/-- The base ALU operations: OP with funct7 0000000 (R105). -/
def decodeOpBase (w : Word) : Instr :=
  if funct3Of w = 0b000 then .add (rdOf w) (rs1Of w) (rs2Of w)
  else if funct3Of w = 0b001 then .sll (rdOf w) (rs1Of w) (rs2Of w)
  else if funct3Of w = 0b010 then .slt (rdOf w) (rs1Of w) (rs2Of w)
  else if funct3Of w = 0b011 then .sltu (rdOf w) (rs1Of w) (rs2Of w)
  else if funct3Of w = 0b100 then .xor (rdOf w) (rs1Of w) (rs2Of w)
  else if funct3Of w = 0b101 then .srl (rdOf w) (rs1Of w) (rs2Of w)
  else if funct3Of w = 0b110 then .or (rdOf w) (rs1Of w) (rs2Of w)
  else .and (rdOf w) (rs1Of w) (rs2Of w)

/-- The MUL family: OP with funct7 0000001 (R105). -/
def decodeOpMul (w : Word) : Instr :=
  if funct3Of w = 0b000 then .mul (rdOf w) (rs1Of w) (rs2Of w)
  else if funct3Of w = 0b001 then .mulh (rdOf w) (rs1Of w) (rs2Of w)
  else if funct3Of w = 0b010 then .mulhsu (rdOf w) (rs1Of w) (rs2Of w)
  else if funct3Of w = 0b011 then .mulhu (rdOf w) (rs1Of w) (rs2Of w)
  else if funct3Of w = 0b100 then .div (rdOf w) (rs1Of w) (rs2Of w)
  else if funct3Of w = 0b101 then .divu (rdOf w) (rs1Of w) (rs2Of w)
  else if funct3Of w = 0b110 then .rem (rdOf w) (rs1Of w) (rs2Of w)
  else .remu (rdOf w) (rs1Of w) (rs2Of w)

/-- OP (R105). -/
def decodeOp (w : Word) : Except DecodeReject Instr :=
  if funct7Of w = 0b0000000 then .ok (decodeOpBase w)
  else if funct7Of w = 0b0000001 then .ok (decodeOpMul w)
  else if funct7Of w = 0b0100000 then
    if funct3Of w = 0b000 then .ok (.sub (rdOf w) (rs1Of w) (rs2Of w))
    else if funct3Of w = 0b101 then .ok (.sra (rdOf w) (rs1Of w) (rs2Of w))
    else .error .opFunct
  else .error .opFunct

/-- OP-IMM (R107). SLLI's bits 31:25 are not examined. -/
def decodeOpImm (w : Word) : Except DecodeReject Instr :=
  if funct3Of w = 0b000 then .ok (.addi (rdOf w) (rs1Of w) (immI w))
  else if funct3Of w = 0b001 then .ok (.slli (rdOf w) (rs1Of w) (shamtOf w))
  else if funct3Of w = 0b010 then .ok (.slti (rdOf w) (rs1Of w) (immI w))
  else if funct3Of w = 0b011 then .ok (.sltiu (rdOf w) (rs1Of w) (immI w))
  else if funct3Of w = 0b100 then .ok (.xori (rdOf w) (rs1Of w) (immI w))
  else if funct3Of w = 0b101 then
    if funct7Of w = 0b0000000 then .ok (.srli (rdOf w) (rs1Of w) (shamtOf w))
    else if funct7Of w = 0b0100000 then .ok (.srai (rdOf w) (rs1Of w) (shamtOf w))
    else .error .opImmFunct7
  else if funct3Of w = 0b110 then .ok (.ori (rdOf w) (rs1Of w) (immI w))
  else .ok (.andi (rdOf w) (rs1Of w) (immI w))

/-- BRANCH (R108). -/
def decodeBranch (w : Word) : Except DecodeReject Instr :=
  if funct3Of w = 0b000 then .ok (.beq (rs1Of w) (rs2Of w) (immB w))
  else if funct3Of w = 0b001 then .ok (.bne (rs1Of w) (rs2Of w) (immB w))
  else if funct3Of w = 0b100 then .ok (.blt (rs1Of w) (rs2Of w) (immB w))
  else if funct3Of w = 0b101 then .ok (.bge (rs1Of w) (rs2Of w) (immB w))
  else if funct3Of w = 0b110 then .ok (.bltu (rs1Of w) (rs2Of w) (immB w))
  else if funct3Of w = 0b111 then .ok (.bgeu (rs1Of w) (rs2Of w) (immB w))
  else .error .branchFunct3

/-- LOAD (R109). -/
def decodeLoad (w : Word) : Except DecodeReject Instr :=
  if funct3Of w = 0b000 then .ok (.lb (rdOf w) (rs1Of w) (immI w))
  else if funct3Of w = 0b001 then .ok (.lh (rdOf w) (rs1Of w) (immI w))
  else if funct3Of w = 0b010 then .ok (.lw (rdOf w) (rs1Of w) (immI w))
  else if funct3Of w = 0b100 then .ok (.lbu (rdOf w) (rs1Of w) (immI w))
  else if funct3Of w = 0b101 then .ok (.lhu (rdOf w) (rs1Of w) (immI w))
  else .error .loadFunct3

/-- STORE (R109). -/
def decodeStore (w : Word) : Except DecodeReject Instr :=
  if funct3Of w = 0b000 then .ok (.sb (rs1Of w) (rs2Of w) (immS w))
  else if funct3Of w = 0b001 then .ok (.sh (rs1Of w) (rs2Of w) (immS w))
  else if funct3Of w = 0b010 then .ok (.sw (rs1Of w) (rs2Of w) (immS w))
  else .error .storeFunct3

/-- SYSTEM (R110). Bits 24:7 are not examined. -/
def decodeSystem (w : Word) : Except DecodeReject Instr :=
  if funct7Of w = 0b0000000 then .ok .ecall
  else if funct7Of w = 0b0000001 then .ok .ebreak
  else .error .systemFunct7

/-- `decode(word)` (R102, R103): every word gives an instruction or a rejection (R112, R113).
JALR's funct3 is not examined (R111). -/
def decodeWord (w : Word) : Except DecodeReject Instr :=
  if opcodeOf w = 0b0110011 then decodeOp w
  else if opcodeOf w = 0b0010011 then decodeOpImm w
  else if opcodeOf w = 0b0110111 then .ok (.lui (rdOf w) (immU w))
  else if opcodeOf w = 0b0010111 then .ok (.auipc (rdOf w) (immU w))
  else if opcodeOf w = 0b1101111 then .ok (.jal (rdOf w) (immJ w))
  else if opcodeOf w = 0b1100111 then .ok (.jalr (rdOf w) (rs1Of w) (immI w))
  else if opcodeOf w = 0b1100011 then decodeBranch w
  else if opcodeOf w = 0b0000011 then decodeLoad w
  else if opcodeOf w = 0b0100011 then decodeStore w
  else if opcodeOf w = 0b1110011 then decodeSystem w
  else .error .opcode

/-- The decoder on bytes: one instruction and the bytes after it. -/
def decode : List Byte → Except DecodeReject (Instr × List Byte)
  | b0 :: b1 :: b2 :: b3 :: rest =>
    match decodeWord (wordOfBytes b0 b1 b2 b3) with
    | .ok i => .ok (i, rest)
    | .error r => .error r
  | _ => .error .truncated

/-- The word an instruction of `nbits` bits `w` is stored as: the bits above `nbits` are zero. -/
def tableWord (nbits w : Nat) : Word := BitVec.ofNat 32 (w % 2 ^ min nbits 32)

/-- What the decoder reads from an instruction whose bits are `w`, numbered as the opcode table
numbers them. -/
def decodeTableWord (nbits w : Nat) : Option Instr :=
  let word := tableWord nbits w
  match decode [byteOfWord word 0, byteOfWord word 1, byteOfWord word 2, byteOfWord word 3] with
  | .ok (i, _) => some i
  | .error _ => none

/-! ## The encoder (R93, R94, R104) -/

/-- R format. -/
def encodeR (f7 : BitVec 7) (rs2 rs1 : RegIdx) (f3 : BitVec 3) (rd : RegIdx) (op : BitVec 7) :
    Word :=
  f7 ++ bitsOfReg rs2 ++ bitsOfReg rs1 ++ f3 ++ bitsOfReg rd ++ op

/-- I format. -/
def encodeI (imm : Word) (rs1 : RegIdx) (f3 : BitVec 3) (rd : RegIdx) (op : BitVec 7) : Word :=
  imm.extractLsb' 0 12 ++ bitsOfReg rs1 ++ f3 ++ bitsOfReg rd ++ op

/-- S format. -/
def encodeS (imm : Word) (rs2 rs1 : RegIdx) (f3 : BitVec 3) (op : BitVec 7) : Word :=
  imm.extractLsb' 5 7 ++ bitsOfReg rs2 ++ bitsOfReg rs1 ++ f3 ++ imm.extractLsb' 0 5 ++ op

/-- B format. -/
def encodeB (imm : Word) (rs2 rs1 : RegIdx) (f3 : BitVec 3) (op : BitVec 7) : Word :=
  imm.extractLsb' 12 1 ++ imm.extractLsb' 5 6 ++ bitsOfReg rs2 ++ bitsOfReg rs1 ++ f3 ++
    imm.extractLsb' 1 4 ++ imm.extractLsb' 11 1 ++ op

/-- U format. -/
def encodeU (imm : Word) (rd : RegIdx) (op : BitVec 7) : Word :=
  imm.extractLsb' 12 20 ++ bitsOfReg rd ++ op

/-- J format. -/
def encodeJ (imm : Word) (rd : RegIdx) (op : BitVec 7) : Word :=
  imm.extractLsb' 20 1 ++ imm.extractLsb' 1 10 ++ imm.extractLsb' 11 1 ++ imm.extractLsb' 12 8 ++
    bitsOfReg rd ++ op

/-- SYSTEM format: the fields the decoder does not examine are written as zeros (log 16). -/
def encodeSystem (f7 : BitVec 7) : Word := f7 ++ 0#18 ++ 0b1110011#7

/-- The word of a well-formed instruction. JALR's funct3 and SLLI's funct7, which the decoder does
not examine, are written as zeros, as a standard assembler does (R107, R111; log 16). -/
def encode : Instr → Word
  | .lui rd imm => encodeU imm rd 0b0110111
  | .auipc rd imm => encodeU imm rd 0b0010111
  | .jal rd imm => encodeJ imm rd 0b1101111
  | .jalr rd rs1 imm => encodeI imm rs1 0b000 rd 0b1100111
  | .beq rs1 rs2 imm => encodeB imm rs2 rs1 0b000 0b1100011
  | .bne rs1 rs2 imm => encodeB imm rs2 rs1 0b001 0b1100011
  | .blt rs1 rs2 imm => encodeB imm rs2 rs1 0b100 0b1100011
  | .bge rs1 rs2 imm => encodeB imm rs2 rs1 0b101 0b1100011
  | .bltu rs1 rs2 imm => encodeB imm rs2 rs1 0b110 0b1100011
  | .bgeu rs1 rs2 imm => encodeB imm rs2 rs1 0b111 0b1100011
  | .lb rd rs1 imm => encodeI imm rs1 0b000 rd 0b0000011
  | .lh rd rs1 imm => encodeI imm rs1 0b001 rd 0b0000011
  | .lw rd rs1 imm => encodeI imm rs1 0b010 rd 0b0000011
  | .lbu rd rs1 imm => encodeI imm rs1 0b100 rd 0b0000011
  | .lhu rd rs1 imm => encodeI imm rs1 0b101 rd 0b0000011
  | .sb rs1 rs2 imm => encodeS imm rs2 rs1 0b000 0b0100011
  | .sh rs1 rs2 imm => encodeS imm rs2 rs1 0b001 0b0100011
  | .sw rs1 rs2 imm => encodeS imm rs2 rs1 0b010 0b0100011
  | .addi rd rs1 imm => encodeI imm rs1 0b000 rd 0b0010011
  | .slti rd rs1 imm => encodeI imm rs1 0b010 rd 0b0010011
  | .sltiu rd rs1 imm => encodeI imm rs1 0b011 rd 0b0010011
  | .xori rd rs1 imm => encodeI imm rs1 0b100 rd 0b0010011
  | .ori rd rs1 imm => encodeI imm rs1 0b110 rd 0b0010011
  | .andi rd rs1 imm => encodeI imm rs1 0b111 rd 0b0010011
  | .slli rd rs1 shamt => encodeR 0b0000000 shamt rs1 0b001 rd 0b0010011
  | .srli rd rs1 shamt => encodeR 0b0000000 shamt rs1 0b101 rd 0b0010011
  | .srai rd rs1 shamt => encodeR 0b0100000 shamt rs1 0b101 rd 0b0010011
  | .add rd rs1 rs2 => encodeR 0b0000000 rs2 rs1 0b000 rd 0b0110011
  | .sub rd rs1 rs2 => encodeR 0b0100000 rs2 rs1 0b000 rd 0b0110011
  | .sll rd rs1 rs2 => encodeR 0b0000000 rs2 rs1 0b001 rd 0b0110011
  | .slt rd rs1 rs2 => encodeR 0b0000000 rs2 rs1 0b010 rd 0b0110011
  | .sltu rd rs1 rs2 => encodeR 0b0000000 rs2 rs1 0b011 rd 0b0110011
  | .xor rd rs1 rs2 => encodeR 0b0000000 rs2 rs1 0b100 rd 0b0110011
  | .srl rd rs1 rs2 => encodeR 0b0000000 rs2 rs1 0b101 rd 0b0110011
  | .sra rd rs1 rs2 => encodeR 0b0100000 rs2 rs1 0b101 rd 0b0110011
  | .or rd rs1 rs2 => encodeR 0b0000000 rs2 rs1 0b110 rd 0b0110011
  | .and rd rs1 rs2 => encodeR 0b0000000 rs2 rs1 0b111 rd 0b0110011
  | .mul rd rs1 rs2 => encodeR 0b0000001 rs2 rs1 0b000 rd 0b0110011
  | .mulh rd rs1 rs2 => encodeR 0b0000001 rs2 rs1 0b001 rd 0b0110011
  | .mulhsu rd rs1 rs2 => encodeR 0b0000001 rs2 rs1 0b010 rd 0b0110011
  | .mulhu rd rs1 rs2 => encodeR 0b0000001 rs2 rs1 0b011 rd 0b0110011
  | .div rd rs1 rs2 => encodeR 0b0000001 rs2 rs1 0b100 rd 0b0110011
  | .divu rd rs1 rs2 => encodeR 0b0000001 rs2 rs1 0b101 rd 0b0110011
  | .rem rd rs1 rs2 => encodeR 0b0000001 rs2 rs1 0b110 rd 0b0110011
  | .remu rd rs1 rs2 => encodeR 0b0000001 rs2 rs1 0b111 rd 0b0110011
  | .ecall => encodeSystem 0b0000000
  | .ebreak => encodeSystem 0b0000001

/-! ## The opcode table (R104) -/

/-- A row of the opcode table: a word is the row's instruction when its bits under `mask` are
`value` (the table's match). -/
structure OpcodeRow where
  mnemonic : String
  value : Word
  mask : Word
  deriving DecidableEq, Repr

/-- The word is the row's instruction. -/
abbrev OpcodeRow.Matches (r : OpcodeRow) (w : Word) : Prop := w &&& r.mask = r.value

/-- The row of each instruction. -/
def Instr.row : Instr → OpcodeRow
  | .lui _ _ => ⟨"LUI", 0x00000037#32, 0x0000007f#32⟩
  | .auipc _ _ => ⟨"AUIPC", 0x00000017#32, 0x0000007f#32⟩
  | .jal _ _ => ⟨"JAL", 0x0000006f#32, 0x0000007f#32⟩
  | .jalr _ _ _ => ⟨"JALR", 0x00000067#32, 0x0000007f#32⟩
  | .beq _ _ _ => ⟨"BEQ", 0x00000063#32, 0x0000707f#32⟩
  | .bne _ _ _ => ⟨"BNE", 0x00001063#32, 0x0000707f#32⟩
  | .blt _ _ _ => ⟨"BLT", 0x00004063#32, 0x0000707f#32⟩
  | .bge _ _ _ => ⟨"BGE", 0x00005063#32, 0x0000707f#32⟩
  | .bltu _ _ _ => ⟨"BLTU", 0x00006063#32, 0x0000707f#32⟩
  | .bgeu _ _ _ => ⟨"BGEU", 0x00007063#32, 0x0000707f#32⟩
  | .lb _ _ _ => ⟨"LB", 0x00000003#32, 0x0000707f#32⟩
  | .lh _ _ _ => ⟨"LH", 0x00001003#32, 0x0000707f#32⟩
  | .lw _ _ _ => ⟨"LW", 0x00002003#32, 0x0000707f#32⟩
  | .lbu _ _ _ => ⟨"LBU", 0x00004003#32, 0x0000707f#32⟩
  | .lhu _ _ _ => ⟨"LHU", 0x00005003#32, 0x0000707f#32⟩
  | .sb _ _ _ => ⟨"SB", 0x00000023#32, 0x0000707f#32⟩
  | .sh _ _ _ => ⟨"SH", 0x00001023#32, 0x0000707f#32⟩
  | .sw _ _ _ => ⟨"SW", 0x00002023#32, 0x0000707f#32⟩
  | .addi _ _ _ => ⟨"ADDI", 0x00000013#32, 0x0000707f#32⟩
  | .slti _ _ _ => ⟨"SLTI", 0x00002013#32, 0x0000707f#32⟩
  | .sltiu _ _ _ => ⟨"SLTIU", 0x00003013#32, 0x0000707f#32⟩
  | .xori _ _ _ => ⟨"XORI", 0x00004013#32, 0x0000707f#32⟩
  | .ori _ _ _ => ⟨"ORI", 0x00006013#32, 0x0000707f#32⟩
  | .andi _ _ _ => ⟨"ANDI", 0x00007013#32, 0x0000707f#32⟩
  | .slli _ _ _ => ⟨"SLLI", 0x00001013#32, 0x0000707f#32⟩
  | .srli _ _ _ => ⟨"SRLI", 0x00005013#32, 0xfe00707f#32⟩
  | .srai _ _ _ => ⟨"SRAI", 0x40005013#32, 0xfe00707f#32⟩
  | .add _ _ _ => ⟨"ADD", 0x00000033#32, 0xfe00707f#32⟩
  | .sub _ _ _ => ⟨"SUB", 0x40000033#32, 0xfe00707f#32⟩
  | .sll _ _ _ => ⟨"SLL", 0x00001033#32, 0xfe00707f#32⟩
  | .slt _ _ _ => ⟨"SLT", 0x00002033#32, 0xfe00707f#32⟩
  | .sltu _ _ _ => ⟨"SLTU", 0x00003033#32, 0xfe00707f#32⟩
  | .xor _ _ _ => ⟨"XOR", 0x00004033#32, 0xfe00707f#32⟩
  | .srl _ _ _ => ⟨"SRL", 0x00005033#32, 0xfe00707f#32⟩
  | .sra _ _ _ => ⟨"SRA", 0x40005033#32, 0xfe00707f#32⟩
  | .or _ _ _ => ⟨"OR", 0x00006033#32, 0xfe00707f#32⟩
  | .and _ _ _ => ⟨"AND", 0x00007033#32, 0xfe00707f#32⟩
  | .mul _ _ _ => ⟨"MUL", 0x02000033#32, 0xfe00707f#32⟩
  | .mulh _ _ _ => ⟨"MULH", 0x02001033#32, 0xfe00707f#32⟩
  | .mulhsu _ _ _ => ⟨"MULHSU", 0x02002033#32, 0xfe00707f#32⟩
  | .mulhu _ _ _ => ⟨"MULHU", 0x02003033#32, 0xfe00707f#32⟩
  | .div _ _ _ => ⟨"DIV", 0x02004033#32, 0xfe00707f#32⟩
  | .divu _ _ _ => ⟨"DIVU", 0x02005033#32, 0xfe00707f#32⟩
  | .rem _ _ _ => ⟨"REM", 0x02006033#32, 0xfe00707f#32⟩
  | .remu _ _ _ => ⟨"REMU", 0x02007033#32, 0xfe00707f#32⟩
  | .ecall => ⟨"ECALL", 0x00000073#32, 0xfe00007f#32⟩
  | .ebreak => ⟨"EBREAK", 0x02000073#32, 0xfe00007f#32⟩

/-- One instruction of each row of the families of 41 to 43, in the table's order. -/
def Instr.oneOfEachTransfer : List Instr :=
  [.lui 0 0, .auipc 0 0, .jal 0 0, .jalr 0 0 0, .beq 0 0 0, .bne 0 0 0, .blt 0 0 0, .bge 0 0 0,
    .bltu 0 0 0, .bgeu 0 0 0, .lb 0 0 0, .lh 0 0 0, .lw 0 0 0, .lbu 0 0 0, .lhu 0 0 0, .sb 0 0 0,
    .sh 0 0 0, .sw 0 0 0]

/-- One instruction of each row of the families of 44 to 47, in the table's order. -/
def Instr.oneOfEachCompute : List Instr :=
  [.addi 0 0 0, .slti 0 0 0, .sltiu 0 0 0, .xori 0 0 0, .ori 0 0 0, .andi 0 0 0, .slli 0 0 0,
    .srli 0 0 0, .srai 0 0 0, .add 0 0 0, .sub 0 0 0, .sll 0 0 0, .slt 0 0 0, .sltu 0 0 0,
    .xor 0 0 0, .srl 0 0 0, .sra 0 0 0, .or 0 0 0, .and 0 0 0, .mul 0 0 0, .mulh 0 0 0,
    .mulhsu 0 0 0, .mulhu 0 0 0, .div 0 0 0, .divu 0 0 0, .rem 0 0 0, .remu 0 0 0, .ecall, .ebreak]

/-- One instruction of each row, in the table's order. -/
def Instr.oneOfEach : List Instr := Instr.oneOfEachTransfer ++ Instr.oneOfEachCompute

/-- The opcode table: 47 rows (R104). -/
def opcodeTable : List OpcodeRow := Instr.oneOfEach.map Instr.row

end Sys2Proof
end

