-- ==== Sys2Proof/Machine/State.lean ====
section
/-! DEFINITION. The machine's state, as plain data, the reasons a step can stop, and the state after
reset (spec/10_state.md). -/

namespace Sys2Proof.Machine

/-- A memory: its bytes by byte address, in canonical form (`Memory.wf`): addresses strictly rising
and no cell holding 0, which is what an unlisted address reads as (R45). -/
abbrev Memory := List Host.Cell

/-- The two arrays an index can fall outside of (spec/60_exceptions.md R283, D28). -/
inductive MemorySpace where
  | rom
  | ram
  deriving DecidableEq, Repr

/-- The three fatal faults, with the value each records (spec/60_exceptions.md R281 to R283). -/
inductive FaultRecord where
  /-- The fetched word matches no row of the opcode table. -/
  | decodeFault (word : Word)
  /-- A branch or jump target is not a multiple of 4. -/
  | alignmentFault (target : Word)
  /-- A word index is not below the size of its array. -/
  | indexFault (space : MemorySpace) (index : Nat)
  deriving DecidableEq, Repr

/-- The status of the run (R42). `exited` and `faulted` are final. -/
inductive Status where
  | running
  | exited (status : Word)
  | faulted (record : FaultRecord)
  deriving DecidableEq, Repr

/-- One call of a collaborator outside the core: the host's three operations
(spec/47_system.md R261) and the video window's one (spec/20_memory.md R66). -/
inductive Event where
  /-- The host answered service 1; `result` is the word it gave x10. -/
  | readByte (result : Word)
  /-- One byte appended to the host's output. -/
  | writeByte (b : Byte)
  /-- The process ended with this status. -/
  | exit (status : Word)
  /-- A store to the video window: the rebased byte address and the whole word. -/
  | video (offset value : Word)
  deriving DecidableEq, Repr

/-- The machine and the host environment its run is given (R42, R43). -/
structure State where
  /-- The program counter (R30). -/
  pc : Word
  /-- `x1` to `x31`, `x1` first; `x0` has no storage (R25 to R27). -/
  regs : Vector Word 31
  /-- The data RAM (R37). -/
  ram : Memory
  /-- The instruction ROM (R36). -/
  rom : Memory
  /-- The halt counter of Execute: idle ticks still to come (R40). -/
  bubble : Fin 3
  /-- The status of the run (R42). -/
  status : Status
  /-- The platform's parameters, which no step changes (spec/00_scope.md R8). -/
  params : Params
  /-- Host input bytes not yet read, next first (R43). -/
  hostInput : List Byte
  /-- The host has no byte beyond `hostInput` to give (spec/47_system.md R263). -/
  hostInputEnded : Bool
  /-- Every call of the host and of the video collaborator so far, oldest first (R43, R261). -/
  events : List Event
  /-- The model's own counter: how many free values have been drawn (log 8). -/
  freeCount : Nat
  deriving DecidableEq, Repr

/-- Why a step stops: the run had already ended, so no tick happens (R42). Raised by `step` alone,
never by a meaning. -/
inductive Fault where
  /-- Raised by `step` in a state whose status is faulted, with the hardware's fault. Safe: the
  machine does nothing after it. -/
  | faulted (record : FaultRecord)
  /-- Raised by `step` in a state whose status is exited: the process is gone. No fault of the
  hardware. Safe: the machine does nothing after it. -/
  | exited (status : Word)
  deriving DecidableEq, Repr

/-- Where the model gives no result. -/
inductive Refusal where
  /-- Raised by an arm of `exec` whose instruction has no meaning yet. Safe. -/
  | notModelled (mnemonic : String)
  /-- Raised by DIV on 0x80000000 and 0xFFFFFFFF where DIV_OVERFLOW is `refuse`
  (spec/46_multiply_divide.md R250). Safe: no claim crosses it. -/
  | divOverflow
  /-- Raised by REM on the same operands where REM_OVERFLOW is `refuse` (R250). Safe. -/
  | remOverflow
  deriving DecidableEq, Repr

/-- The state after reset (R45, R310) with R8's parameters at `Config.resetParams` and no program
image. The host environment's fields have values of the model's choice (log 7). -/
def State.reset : State where
  pc := 0
  regs := Vector.replicate 31 0
  ram := []
  rom := []
  bubble := 0
  status := .running
  params := Config.resetParams
  hostInput := []
  hostInputEnded := false
  events := []
  freeCount := 0

end Sys2Proof.Machine
end

