-- ==== Sys2Proof/Machine/Ops.lean ====
section
/-! DEFINITION. The named operations over memory, registers and the program counter, the commit at
the end of a tick, taking a fault, and what the world outside does to the state. -/

namespace Sys2Proof.Machine

/-- How a step or a meaning ends. -/
abbrev Result := Host.Outcome State Fault Refusal

/-! ## Memory (spec/20_memory.md) -/

/-- The cells rise strictly from `lo` on and none holds 0. -/
def Memory.wfFrom : Nat → Memory → Bool
  | _, [] => true
  | lo, (a, b) :: m => decide (lo ≤ a) && b != 0 && Memory.wfFrom (a + 1) m

/-- The canonical form: addresses strictly rising, no cell equal to what an unlisted address reads
as. -/
def Memory.wf (m : Memory) : Bool := Memory.wfFrom 0 m

/-- Every listed address is below `n`. -/
def Memory.below (n : Nat) (m : Memory) : Bool := m.all fun c => decide (c.1 < n)

/-- The byte at an address; an unlisted address reads as 0 (spec/10_state.md R45). -/
def Memory.byteAt : Memory → Nat → Byte
  | [], _ => 0
  | (a', b') :: m, a => if a' = a then b' else Memory.byteAt m a

/-- A cell in front of a memory, left out when it holds 0. -/
def Memory.consByte (a : Nat) (b : Byte) (m : Memory) : Memory := if b = 0 then m else (a, b) :: m

/-- The memory with one byte replaced, in canonical form again. -/
def Memory.setByte : Memory → Nat → Byte → Memory
  | [], a, b => Memory.consByte a b []
  | (a', b') :: m, a, b =>
    if a < a' then Memory.consByte a b ((a', b') :: m)
    else if a = a' then Memory.consByte a b m
    else (a', b') :: Memory.setByte m a b

/-- Word `i` of a memory: the four bytes from byte address `4 * i` (R61, R62; byte order: log 6). -/
def Memory.wordAt (m : Memory) (i : Nat) : Word :=
  wordOfBytes (m.byteAt (4 * i)) (m.byteAt (4 * i + 1)) (m.byteAt (4 * i + 2))
    (m.byteAt (4 * i + 3))

/-- The memory with word `i` replaced. -/
def Memory.setWord (m : Memory) (i : Nat) (w : Word) : Memory :=
  (((m.setByte (4 * i) (byteOfWord w 0)).setByte (4 * i + 1) (byteOfWord w 1)).setByte (4 * i + 2)
    (byteOfWord w 2)).setByte (4 * i + 3) (byteOfWord w 3)

/-- The word index of a byte address: `u(addr) >> 2` (R61, R62). -/
def wordIndex (addr : Word) : Nat := addr.toNat >>> 2

/-! ## Registers (spec/10_state.md R25 to R29) -/

/-- Read one register; `x0` is 0. -/
def readReg (regs : Vector Word 31) : RegIdx → Word
  | ⟨0, _⟩ => 0
  | ⟨k + 1, h⟩ => regs[k]'(Nat.lt_of_succ_lt_succ h)

/-- Write one register; a write to `x0` is discarded. -/
def writeReg (regs : Vector Word 31) : RegIdx → Word → Vector Word 31
  | ⟨0, _⟩, _ => regs
  | ⟨k + 1, h⟩, v => regs.set k v (Nat.lt_of_succ_lt_succ h)

/-- `x[r]`. -/
def State.x (s : State) (r : RegIdx) : Word := readReg s.regs r

/-- The registers the ECALL convention names (spec/47_system.md R260; D20). -/
def regA0 : RegIdx := 10
def regA1 : RegIdx := 11
def regA7 : RegIdx := 17

/-! ## Program counter (spec/10_state.md R30 to R34) -/

/-- The program counter's next value under its three control inputs: reset over load over
increment, and hold when none is given (R31, D27). -/
def pcNext (reset load increment : Bool) (input current : Word) : Word :=
  if reset then 0 else if load then input else if increment then current + 4 else current

/-- `target[1:0] = 0` (R161). -/
def aligned (target : Word) : Bool := target.extractLsb' 0 2 == 0

/-! ## The tick's staged writes and their commit (spec/10_state.md R22 to R24,
spec/40_fetch_and_step.md R136, R140) -/

/-- What one instruction stages while the tick settles: the pending values that `commit` makes
visible together. -/
structure Effects where
  /-- rd-write: the register and the value driven into it. -/
  rdWrite : Option (RegIdx × Word) := none
  /-- The RAM word index and the value stored. -/
  ramWrite : Option (Nat × Word) := none
  /-- PC-load: the value loaded; none is the default increment (R32). -/
  pcLoad : Option Word := none
  /-- A control-flow redirect, which starts the bubble (R138). -/
  redirect : Bool := false
  /-- Calls of the host and of the video collaborator, in order. -/
  calls : List Event := []
  /-- Free values drawn. -/
  freeDrawn : Nat := 0
  deriving DecidableEq, Repr

/-- The staged register write, if any. -/
def commitRegs (write : Option (RegIdx × Word)) (regs : Vector Word 31) : Vector Word 31 :=
  match write with
  | some (rd, v) => writeReg regs rd v
  | none => regs

/-- The staged RAM write, if any. -/
def commitRam (write : Option (Nat × Word)) (ram : Memory) : Memory :=
  match write with
  | some (i, v) => ram.setWord i v
  | none => ram

/-- The clock edge at the end of an instruction's tick: all staged writes at once (R24, R140). -/
def commit (e : Effects) (s : State) : State :=
  { s with
    pc := pcNext false e.pcLoad.isSome true (e.pcLoad.getD 0) s.pc
    regs := commitRegs e.rdWrite s.regs
    ram := commitRam e.ramWrite s.ram
    bubble := if e.redirect then Config.bubbleTicks else s.bubble
    events := s.events ++ e.calls
    freeCount := s.freeCount + e.freeDrawn }

/-- A bubble tick: the counter goes down, the program counter holds, nothing else happens (R139). -/
def bubbleTick (s : State) : State :=
  { s with pc := pcNext false false false 0 s.pc, bubble := s.bubble - 1 }

/-! ## Faults (spec/60_exceptions.md R280 to R290) -/

/-- Take a fault: the run's status becomes faulted and nothing staged is committed, so registers, RAM
and `pc` are as the previous instruction left them (R288). No vector, no saved state, no mode, and no
return from it (R290). DESIGN CHOICE: the tick that raises ends in this next state, and `step` stops
there (log 9). -/
def raiseFault (f : FaultRecord) (s : State) : Result := .next { s with status := .faulted f }

/-! ## The access primitives (spec/20_memory.md R63 to R66) -/

/-- ROM word `i`, or the IndexFault (R63). -/
def romWord (s : State) (i : Nat) : Except FaultRecord Word :=
  if i < s.params.romWords then .ok (s.rom.wordAt i) else .error (.indexFault .rom i)

/-- RomRead(addr) (R63). -/
def romRead (s : State) (addr : Word) : Except FaultRecord Word := romWord s (wordIndex addr)

/-- MemRead(addr, 4) (R64): loads are not redirected to the video window (D17). -/
def memRead (s : State) (addr : Word) : Except FaultRecord Word :=
  if wordIndex addr < s.params.ramWords then .ok (s.ram.wordAt (wordIndex addr))
  else .error (.indexFault .ram (wordIndex addr))

/-- MemWrite(addr, 4, v), staged (R65, R66): the video window from VIDEO_BASE up, by the unsigned byte
address, or a RAM word. -/
def memWrite (s : State) (addr v : Word) : Except FaultRecord Effects :=
  if Config.videoBase ≤ addr then .ok { calls := [.video (addr - Config.videoBase) v] }
  else if wordIndex addr < s.params.ramWords then .ok { ramWrite := some (wordIndex addr, v) }
  else .error (.indexFault .ram (wordIndex addr))

/-! ## Ends of an instruction -/

/-- Write `rd` and advance: the end of every rd-write-only instruction (R136). -/
def writeBack (rd : RegIdx) (v : Word) (s : State) : Result :=
  .next (commit { rdWrite := some (rd, v) } s)

/-- Load the program counter with a target and start the bubble, writing the link register if there
is one; or the AlignmentFault (spec/42_jumps_and_branches.md R161, R162). -/
def transfer (target : Word) (link : Option (RegIdx × Word)) (s : State) : Result :=
  if aligned target then
    .next (commit { rdWrite := link, pcLoad := some target, redirect := true } s)
  else raiseFault (.alignmentFault target) s

/-! ## The world outside: loader and host -/

/-- Words laid into a memory from word index `i` on. -/
def Memory.setWords (m : Memory) (i : Nat) : List Word → Memory
  | [] => m
  | w :: ws => Memory.setWords (m.setWord i w) (i + 1) ws

/-- The excluded loader: the image, verbatim, into ROM from word index 0
(spec/70_reset_and_hazards.md R312). -/
def State.loadImage (image : List Word) (s : State) : State :=
  { s with rom := Memory.setWords [] 0 image }

/-- The state after reset of a platform with parameters `p` and this image (R45). -/
def State.boot (p : Params) (image : List Word) : State :=
  State.loadImage image { State.reset with params := p }

/-- The host supplies one more input byte (spec/47_system.md R261). -/
def State.hostSupply (b : Byte) (s : State) : State := { s with hostInput := s.hostInput ++ [b] }

/-- The host's input ends: no byte comes after those supplied (R263). -/
def State.hostEndInput (s : State) : State := { s with hostInputEnded := true }

/-- The bytes the host's output has received (R43), read off the events. -/
def State.hostOutput (s : State) : List Byte :=
  s.events.filterMap fun
    | .writeByte b => some b
    | _ => none

/-- The video writes so far (R43), read off the events. -/
def State.videoWrites (s : State) : List (Word × Word) :=
  s.events.filterMap fun
    | .video offset value => some (offset, value)
    | _ => none

end Sys2Proof.Machine
end

