-- ==== Sys2Proof/Machine/Operands.lean ====
section
/-! DEFINITION. The operand forms (spec/40_fetch_and_step.md R134, spec/43_loads_and_stores.md R180,
spec/30_encoding.md R101). A register operand is `State.x`; an immediate operand is the decoded
Word itself. -/

namespace Sys2Proof.Machine

/-- The one addressing mode: base register plus immediate, modulo 2^32 (R180). -/
def effectiveAddress (rs1 : RegIdx) (imm : Word) (s : State) : Word := s.x rs1 + imm

/-- The target of a branch, of JAL and of AUIPC: `pc` plus immediate, modulo 2^32 (R161). -/
def pcRelative (imm : Word) (s : State) : Word := s.pc + imm

/-- JALR's target: base register plus immediate with the lowest bit cleared (R163). -/
def jalrTarget (rs1 : RegIdx) (imm : Word) (s : State) : Word := (s.x rs1 + imm) &&& 0xFFFFFFFE#32

/-- The return address, `pc + 4` (R162). -/
def returnAddress (s : State) : Word := s.pc + 4

/-- The distance of a register shift: the low five bits of the register (R101, R220). -/
def shiftDistance (v : Word) : ShiftAmount := regOfBits (v.extractLsb' 0 5)

/-- The register that bits 11:7 of a store name: `imm_S[4:0]` (R102, R191). -/
def storeRdField (imm : Word) : RegIdx := regOfBits (imm.extractLsb' 0 5)

end Sys2Proof.Machine
end

