-- ==== Sys2Proof/Machine/AluImmediate.lean ====
section
/-! DEFINITION. The nine immediate ALU instructions (spec/44_alu_immediate.md R200 to R209). -/

namespace Sys2Proof.Machine

/-- ADDI (R201). -/
def execAddi (rd rs1 : RegIdx) (imm : Word) (s : State) : Result :=
  writeBack rd (aluAdd (s.x rs1) imm) s

/-- SLTI (R202). -/
def execSlti (rd rs1 : RegIdx) (imm : Word) (s : State) : Result :=
  writeBack rd (aluSlt (s.x rs1) imm) s

/-- SLTIU (R203). -/
def execSltiu (rd rs1 : RegIdx) (imm : Word) (s : State) : Result :=
  writeBack rd (aluSltu (s.x rs1) imm) s

/-- XORI (R204). -/
def execXori (rd rs1 : RegIdx) (imm : Word) (s : State) : Result :=
  writeBack rd (aluXor (s.x rs1) imm) s

/-- ORI (R205). -/
def execOri (rd rs1 : RegIdx) (imm : Word) (s : State) : Result :=
  writeBack rd (aluOr (s.x rs1) imm) s

/-- ANDI (R206). -/
def execAndi (rd rs1 : RegIdx) (imm : Word) (s : State) : Result :=
  writeBack rd (aluAnd (s.x rs1) imm) s

/-- SLLI (R207). -/
def execSlli (rd rs1 : RegIdx) (shamt : ShiftAmount) (s : State) : Result :=
  writeBack rd (aluSll (s.x rs1) shamt) s

/-- SRLI (R208). -/
def execSrli (rd rs1 : RegIdx) (shamt : ShiftAmount) (s : State) : Result :=
  writeBack rd (aluSrl (s.x rs1) shamt) s

/-- SRAI (R209). -/
def execSrai (rd rs1 : RegIdx) (shamt : ShiftAmount) (s : State) : Result :=
  writeBack rd (aluSra (s.x rs1) shamt) s

end Sys2Proof.Machine
end

