-- ==== Sys2Proof/Machine/AluRegister.lean ====
section
/-! DEFINITION. The ten register ALU instructions (spec/45_alu_register.md R220 to R230). -/

namespace Sys2Proof.Machine

/-- ADD (R221). -/
def execAdd (rd rs1 rs2 : RegIdx) (s : State) : Result :=
  writeBack rd (aluAdd (s.x rs1) (s.x rs2)) s

/-- SUB (R222). -/
def execSub (rd rs1 rs2 : RegIdx) (s : State) : Result :=
  writeBack rd (aluSub (s.x rs1) (s.x rs2)) s

/-- SLL (R223). -/
def execSll (rd rs1 rs2 : RegIdx) (s : State) : Result :=
  writeBack rd (aluSll (s.x rs1) (shiftDistance (s.x rs2))) s

/-- SLT (R224). -/
def execSlt (rd rs1 rs2 : RegIdx) (s : State) : Result :=
  writeBack rd (aluSlt (s.x rs1) (s.x rs2)) s

/-- SLTU (R225). -/
def execSltu (rd rs1 rs2 : RegIdx) (s : State) : Result :=
  writeBack rd (aluSltu (s.x rs1) (s.x rs2)) s

/-- XOR (R226). -/
def execXor (rd rs1 rs2 : RegIdx) (s : State) : Result :=
  writeBack rd (aluXor (s.x rs1) (s.x rs2)) s

/-- SRL (R227). -/
def execSrl (rd rs1 rs2 : RegIdx) (s : State) : Result :=
  writeBack rd (aluSrl (s.x rs1) (shiftDistance (s.x rs2))) s

/-- SRA (R228). -/
def execSra (rd rs1 rs2 : RegIdx) (s : State) : Result :=
  writeBack rd (aluSra (s.x rs1) (shiftDistance (s.x rs2))) s

/-- OR (R229). -/
def execOr (rd rs1 rs2 : RegIdx) (s : State) : Result :=
  writeBack rd (aluOr (s.x rs1) (s.x rs2)) s

/-- AND (R230). -/
def execAnd (rd rs1 rs2 : RegIdx) (s : State) : Result :=
  writeBack rd (aluAnd (s.x rs1) (s.x rs2)) s

end Sys2Proof.Machine
end

