-- ==== Sys2Proof/Machine/JumpsBranches.lean ====
section
/-! DEFINITION. JAL, JALR and the six branches (spec/42_jumps_and_branches.md). -/

namespace Sys2Proof.Machine

/-- JAL (R162). -/
def execJal (rd : RegIdx) (imm : Word) (s : State) : Result :=
  transfer (pcRelative imm s) (some (rd, returnAddress s)) s

/-- JALR (R163): the target uses the old `x[rs1]`. -/
def execJalr (rd rs1 : RegIdx) (imm : Word) (s : State) : Result :=
  transfer (jalrTarget rs1 imm s) (some (rd, returnAddress s)) s

/-- A conditional branch (R164): the computed target is checked whether or not the branch is taken
(log 18); an untaken branch loads `pc + 4` and is no redirect. -/
def branch (cond : Word → Word → Bool) (rs1 rs2 : RegIdx) (imm : Word) (s : State) : Result :=
  if aligned (pcRelative imm s) then
    if cond (s.x rs1) (s.x rs2) then transfer (pcRelative imm s) none s
    else .next (commit { pcLoad := some (s.pc + 4) } s)
  else raiseFault (.alignmentFault (pcRelative imm s)) s

/-- BEQ (R165). -/
def execBeq (rs1 rs2 : RegIdx) (imm : Word) (s : State) : Result := branch condEq rs1 rs2 imm s

/-- BNE (R166). -/
def execBne (rs1 rs2 : RegIdx) (imm : Word) (s : State) : Result := branch condNe rs1 rs2 imm s

/-- BLT (R167). -/
def execBlt (rs1 rs2 : RegIdx) (imm : Word) (s : State) : Result := branch condLt rs1 rs2 imm s

/-- BGE (R168). -/
def execBge (rs1 rs2 : RegIdx) (imm : Word) (s : State) : Result := branch condGe rs1 rs2 imm s

/-- BLTU (R169). -/
def execBltu (rs1 rs2 : RegIdx) (imm : Word) (s : State) : Result := branch condLtu rs1 rs2 imm s

/-- BGEU (R170). -/
def execBgeu (rs1 rs2 : RegIdx) (imm : Word) (s : State) : Result := branch condGeu rs1 rs2 imm s

end Sys2Proof.Machine
end

