-- ==== Sys2Proof/Machine/LoadsStores.lean ====
section
/-! DEFINITION. The five loads and three stores (spec/43_loads_and_stores.md). Every one moves a whole
word, whatever its mnemonic (R181). -/

namespace Sys2Proof.Machine

/-- The load (R182): the read happens, and can fault, also when `rd` is `x0`. -/
def load (rd rs1 : RegIdx) (imm : Word) (s : State) : Result :=
  match memRead s (effectiveAddress rs1 imm s) with
  | .ok v => writeBack rd v s
  | .error f => raiseFault f s

/-- What a store that did not fault does to the register its bits 11:7 name: nothing, or, where
STORE_CLOBBERS_RD is true, an unspecified word (R191; log 4). -/
def clobberRd (imm : Word) (s : State) (e : Effects) : Effects :=
  if s.params.storeClobbersRd then
    { e with rdWrite := some (storeRdField imm, Config.clobber s.freeCount), freeDrawn := 1 }
  else e

/-- The store (R188). -/
def store (rs1 rs2 : RegIdx) (imm : Word) (s : State) : Result :=
  match memWrite s (effectiveAddress rs1 imm s) (s.x rs2) with
  | .ok e => .next (commit (clobberRd imm s e) s)
  | .error f => raiseFault f s

/-- LB (R183). -/
def execLb (rd rs1 : RegIdx) (imm : Word) (s : State) : Result := load rd rs1 imm s

/-- LH (R184). -/
def execLh (rd rs1 : RegIdx) (imm : Word) (s : State) : Result := load rd rs1 imm s

/-- LW (R185). -/
def execLw (rd rs1 : RegIdx) (imm : Word) (s : State) : Result := load rd rs1 imm s

/-- LBU (R186). -/
def execLbu (rd rs1 : RegIdx) (imm : Word) (s : State) : Result := load rd rs1 imm s

/-- LHU (R187). -/
def execLhu (rd rs1 : RegIdx) (imm : Word) (s : State) : Result := load rd rs1 imm s

/-- SB (R188). -/
def execSb (rs1 rs2 : RegIdx) (imm : Word) (s : State) : Result := store rs1 rs2 imm s

/-- SH (R189). -/
def execSh (rs1 rs2 : RegIdx) (imm : Word) (s : State) : Result := store rs1 rs2 imm s

/-- SW (R190). -/
def execSw (rs1 rs2 : RegIdx) (imm : Word) (s : State) : Result := store rs1 rs2 imm s

end Sys2Proof.Machine
end

