-- ==== Sys2Proof/Machine/MulDiv.lean ====
section
/-! DEFINITION. The eight multiply and divide instructions (spec/46_multiply_divide.md R240 to R251). -/

namespace Sys2Proof.Machine

/-- MUL (R241). -/
def execMul (rd rs1 rs2 : RegIdx) (s : State) : Result :=
  writeBack rd (aluMul (s.x rs1) (s.x rs2)) s

/-- MULH (R242). -/
def execMulh (rd rs1 rs2 : RegIdx) (s : State) : Result :=
  writeBack rd (aluMulh (s.x rs1) (s.x rs2)) s

/-- MULHSU (R243). -/
def execMulhsu (rd rs1 rs2 : RegIdx) (s : State) : Result :=
  writeBack rd (aluMulhsu (s.x rs1) (s.x rs2)) s

/-- MULHU (R244). -/
def execMulhu (rd rs1 rs2 : RegIdx) (s : State) : Result :=
  writeBack rd (aluMulhu (s.x rs1) (s.x rs2)) s

/-- DIV (R245, R250): the one refusal is DIV_OVERFLOW's own. -/
def execDiv (rd rs1 rs2 : RegIdx) (s : State) : Result :=
  match aluDiv s.params.divOverflow (s.x rs1) (s.x rs2) with
  | some v => writeBack rd v s
  | none => .refused .divOverflow

/-- DIVU (R246). -/
def execDivu (rd rs1 rs2 : RegIdx) (s : State) : Result :=
  writeBack rd (aluDivu (s.x rs1) (s.x rs2)) s

/-- REM (R247, R250): the one refusal is REM_OVERFLOW's own. -/
def execRem (rd rs1 rs2 : RegIdx) (s : State) : Result :=
  match aluRem s.params.remOverflow (s.x rs1) (s.x rs2) with
  | some v => writeBack rd v s
  | none => .refused .remOverflow

/-- REMU (R248). -/
def execRemu (rd rs1 rs2 : RegIdx) (s : State) : Result :=
  writeBack rd (aluRemu (s.x rs1) (s.x rs2)) s

end Sys2Proof.Machine
end

