-- ==== Sys2Proof/Machine/System.lean ====
section
/-! DEFINITION. ECALL with its host services, and EBREAK (spec/47_system.md). -/

namespace Sys2Proof.Machine

/-- Service 1 (R263): the next input byte, zero-extended, into `x10`. With no byte supplied yet the
tick does not complete: the state stays as it is until the host supplies one (R141, R300; log 7).
At end of input the host returns some word, a free value (log 8). -/
def serviceRead (s : State) : Result :=
  match s.hostInput with
  | b :: rest =>
    .next { commit { rdWrite := some (regA0, b.setWidth 32), calls := [.readByte (b.setWidth 32)] } s
            with hostInput := rest }
  | [] =>
    if s.hostInputEnded then
      .next (commit { rdWrite := some (regA0, Config.endOfInput s.freeCount),
                      calls := [.readByte (Config.endOfInput s.freeCount)], freeDrawn := 1 } s)
    else .next s

/-- Service 2 (R264): the low byte of `x10` to the host's output. -/
def serviceWrite (s : State) : Result :=
  .next (commit { calls := [.writeByte ((s.x regA0).extractLsb' 0 8)] } s)

/-- The bytes of service 4 from ROM word `i` on, `n` of them or up to the end of the ROM, and the
IndexFault there if that comes first (R265). -/
def packedBytes (s : State) (i : Nat) : Nat → List Byte × Option FaultRecord
  | 0 => ([], none)
  | n + 1 =>
    match romWord s i with
    | .error f => ([], some f)
    | .ok w =>
      let rest := packedBytes s (i + 1) n
      (w.extractLsb' 12 8 :: rest.1, rest.2)

/-- Service 4 (R265): `x11` bytes, bits 19:12 of the ROM words from byte address `x10` on. Past the
ROM an IndexFault, the bytes written before it staying written. -/
def serviceWriteRom (s : State) : Result :=
  let packed := packedBytes s (wordIndex (s.x regA0)) (s.x regA1).toNat
  let calls := packed.1.map Event.writeByte
  match packed.2 with
  | none => .next (commit { calls := calls } s)
  | some f => raiseFault f { s with events := s.events ++ calls }

/-- Service 10 (R266): the run ends with `x10` as its status. -/
def serviceExit (s : State) : Result :=
  .next { s with status := .exited (s.x regA0), events := s.events ++ [.exit (s.x regA0)] }

/-- ECALL (R262): the whole of `x17` selects the service; any other number does nothing (R267). -/
def execEcall (s : State) : Result :=
  if s.x regA7 = 1 then serviceRead s
  else if s.x regA7 = 2 then serviceWrite s
  else if s.x regA7 = 4 then serviceWriteRom s
  else if s.x regA7 = 10 then serviceExit s
  else .next (commit {} s)

/-- EBREAK (R270): no operation. -/
def execEbreak (s : State) : Result := .next (commit {} s)

end Sys2Proof.Machine
end

