-- ==== Sys2Proof/Machine/UpperImmediate.lean ====
section
/-! DEFINITION. LUI and AUIPC (spec/41_upper_immediate.md). -/

namespace Sys2Proof.Machine

/-- LUI (R151): `rd` gets the U-immediate. -/
def execLui (rd : RegIdx) (imm : Word) (s : State) : Result := writeBack rd imm s

/-- AUIPC (R152): a jump to `pc` plus the U-immediate that writes no register, whatever `rd` names. -/
def execAuipc (_rd : RegIdx) (imm : Word) (s : State) : Result :=
  transfer (pcRelative imm s) none s

end Sys2Proof.Machine
end

