-- ==== Sys2Proof/Machine/Fetch.lean ====
section
/-! DEFINITION. Fetch and decode (spec/40_fetch_and_step.md R131, R132). -/

namespace Sys2Proof.Machine

/-- The instruction word at the program counter, or the IndexFault (R131). -/
def fetchWord (s : State) : Except FaultRecord Word := romRead s s.pc

/-- The instruction at the program counter: the fetch's IndexFault first, then the word's DecodeFault
(R132, R281, R287). -/
def fetchInstr (s : State) : Except FaultRecord Instr :=
  match fetchWord s with
  | .error f => .error f
  | .ok w =>
    match decodeWord w with
    | .ok i => .ok i
    | .error _ => .error (.decodeFault w)

/-- Store an instruction word where the next step fetches it, and make the next step fetch: the run is
running, no idle tick is pending, and the ROM reaches as far as `pc`. -/
def placeWord (w : Word) (s : State) : State :=
  { s with
    rom := s.rom.setWord (wordIndex s.pc) w
    bubble := 0
    status := .running
    params := { s.params with romWords := max s.params.romWords (wordIndex s.pc + 1) } }

end Sys2Proof.Machine
end

