-- ==== Sys2Proof/Machine/Step.lean ====
section
/-! DEFINITION. One tick of the machine (spec/40_fetch_and_step.md R140). -/

namespace Sys2Proof.Machine

/-- One tick. A run that has ended takes none (R42); a bubble tick only counts down (R139);
otherwise the instruction at the program counter is fetched, decoded and executed, or the tick takes
the fault that comes first (R287). -/
def step (s : State) : Host.Outcome State Fault Refusal :=
  match s.status with
  | .faulted f => .fault (.faulted f)
  | .exited c => .fault (.exited c)
  | .running =>
    if s.bubble = 0 then
      match fetchInstr s with
      | .error f => raiseFault f s
      | .ok i => exec i s
    else .next (bubbleTick s)

/-- `s` with the instruction of `nbits` bits `w` where the next step fetches it (log 10). -/
def State.withFetchWord (s : State) (nbits w : Nat) : State := placeWord (tableWord nbits w) s

end Sys2Proof.Machine
end

