-- ==== Sys2Proof/Safety.lean ====
section
/-! DEFINITION. What a good state and a safe run are, the instruction-level machine
(spec/40_fetch_and_step.md R142), and the words the statements use for what an instruction leaves
unchanged. -/

namespace Sys2Proof.Machine

/-! ## The invariant -/

/-- The invariant every step keeps: `pc` is a multiple of 4 (R30), both memories have their canonical
form and list nothing past their sizes (R36, R37), and the parameters meet R8's constraints. -/
abbrev State.Inv (s : State) : Prop :=
  aligned s.pc = true ∧
  s.ram.wf = true ∧ s.ram.below (4 * s.params.ramWords) = true ∧
  s.rom.wf = true ∧ s.rom.below (4 * s.params.romWords) = true ∧
  s.params.Valid

/-- The run goes on after this state: it has neither ended nor faulted (R42). A safe run is one whose
states all satisfy this up to its exit. -/
abbrev State.Live (s : State) : Prop := s.status = .running

/-- The next tick executes an instruction: the run is live and no idle tick is pending. -/
abbrev State.Ready (s : State) : Prop := s.status = .running ∧ s.bubble = 0

/-! ## The instruction-level machine -/

/-- One instruction with its idle ticks left out (R142). -/
def instrStep (s : State) : Result :=
  match s.status with
  | .faulted f => .fault (.faulted f)
  | .exited c => .fault (.exited c)
  | .running =>
    match fetchInstr s with
    | .error f => raiseFault f s
    | .ok i =>
      match exec i s with
      | .next t => .next { t with bubble := 0 }
      | .fault f => .fault f
      | .refused r => .refused r

/-- The instruction-level machine, run by the host's own `run`. -/
def instrCore : Host.Core where
  State := State
  Fault := Fault
  Refusal := Refusal
  step := instrStep
  reset := State.reset

/-! ## Frames: what stays -/

/-- Every byte of both memories reads as before. -/
abbrev SameMemory (s t : State) : Prop :=
  (∀ a, t.ram.byteAt a = s.ram.byteAt a) ∧ ∀ a, t.rom.byteAt a = s.rom.byteAt a

/-- Nothing passed between the core and the world outside, and no free value was drawn. -/
abbrev SameWorld (s t : State) : Prop :=
  t.hostInput = s.hostInput ∧ t.hostInputEnded = s.hostInputEnded ∧ t.events = s.events ∧
  t.freeCount = s.freeCount

/-- The run's status and the platform's parameters are as before. -/
abbrev SameRun (s t : State) : Prop := t.status = s.status ∧ t.params = s.params

/-- Every general register reads as before. -/
abbrev SameRegs (s t : State) : Prop := ∀ r, t.x r = s.x r

/-- `rd` reads as `v` (`x0` as 0), every other register as before. -/
abbrev RegsBut (rd : RegIdx) (v : Word) (s t : State) : Prop :=
  t.x rd = (if rd = 0 then 0 else v) ∧ ∀ r, r ≠ rd → t.x r = s.x r

/-- An rd-write-only instruction completed: `rd` holds `v`, `pc` advanced by 4, no bubble started, and
nothing else changed (R136, R200). -/
abbrev Computes (rd : RegIdx) (v : Word) (s t : State) : Prop :=
  RegsBut rd v s t ∧ t.pc = s.pc + 4 ∧ t.bubble = s.bubble ∧
  SameMemory s t ∧ SameWorld s t ∧ SameRun s t

/-- A transfer to `target` completed with no register written: the bubble starts and nothing else
changed (R138). -/
abbrev Redirects (target : Word) (s t : State) : Prop :=
  SameRegs s t ∧ t.pc = target ∧ t.bubble = 2 ∧ SameMemory s t ∧ SameWorld s t ∧ SameRun s t

/-- A transfer to `target` completed with `rd` linked to the return address (R162). -/
abbrev RedirectsAndLinks (rd : RegIdx) (target : Word) (s t : State) : Prop :=
  RegsBut rd (s.pc + 4) s t ∧ t.pc = target ∧ t.bubble = 2 ∧
  SameMemory s t ∧ SameWorld s t ∧ SameRun s t

/-- Only the program counter moved, by 4. -/
abbrev OnlyAdvances (s t : State) : Prop :=
  SameRegs s t ∧ t.pc = s.pc + 4 ∧ t.bubble = s.bubble ∧
  SameMemory s t ∧ SameWorld s t ∧ SameRun s t

/-- The fault was taken and nothing else changed: registers, `pc`, memories and the world are as they
were (spec/60_exceptions.md R288). -/
abbrev Faults (f : FaultRecord) (s t : State) : Prop :=
  t.status = .faulted f ∧ SameRegs s t ∧ t.pc = s.pc ∧ t.bubble = s.bubble ∧
  SameMemory s t ∧ SameWorld s t ∧ t.params = s.params

/-- What a store does to the registers: nothing; or, where STORE_CLOBBERS_RD is true, some word in the
register bits 11:7 name, one free value drawn (spec/43_loads_and_stores.md R191). -/
abbrev StoreRegs (imm : Word) (s t : State) : Prop :=
  (s.params.storeClobbersRd = false → SameRegs s t ∧ t.freeCount = s.freeCount) ∧
  (s.params.storeClobbersRd = true →
    (∃ v, ∀ rd : RegIdx, rd.val = imm.toNat % 32 → RegsBut rd v s t) ∧
    t.freeCount = s.freeCount + 1)

/-- ECALL service 1 completed with the word `v` in x10 (spec/47_system.md R263). -/
abbrev ReadsByte (v : Word) (s t : State) : Prop :=
  RegsBut 10 v s t ∧ t.events = s.events ++ [.readByte v] ∧ t.pc = s.pc + 4 ∧
  t.bubble = s.bubble ∧ t.hostInputEnded = s.hostInputEnded ∧ SameMemory s t ∧ SameRun s t

/-- What the writing and exiting services leave unchanged, besides `pc`, status and events
(spec/47_system.md R264 to R266). -/
abbrev EcallKeeps (s t : State) : Prop :=
  SameRegs s t ∧ t.bubble = s.bubble ∧ SameMemory s t ∧ t.params = s.params ∧
  t.hostInput = s.hostInput ∧ t.hostInputEnded = s.hostInputEnded ∧ t.freeCount = s.freeCount

/-! ## Kinds of instruction the statements speak of -/

/-- A word whose bits under `mask` are `value` decodes to `f` of the word (an Encoding line of the
spec's instruction rules). -/
abbrev EncodedBy (mask value : Word) (f : Word → Instr) : Prop :=
  ∀ w : Word, w &&& mask = value → decodeWord w = .ok (f w)

/-- The instruction redirects control in this state: a branch whose condition is true, JAL, JALR or
AUIPC (R138). -/
def Redirecting : Instr → State → Prop
  | .auipc _ _, _ | .jal _ _, _ | .jalr _ _ _, _ => True
  | .beq rs1 rs2 _, s => s.x rs1 = s.x rs2
  | .bne rs1 rs2 _, s => s.x rs1 ≠ s.x rs2
  | .blt rs1 rs2 _, s => (s.x rs1).toInt < (s.x rs2).toInt
  | .bge rs1 rs2 _, s => (s.x rs2).toInt ≤ (s.x rs1).toInt
  | .bltu rs1 rs2 _, s => (s.x rs1).toNat < (s.x rs2).toNat
  | .bgeu rs1 rs2 _, s => (s.x rs2).toNat ≤ (s.x rs1).toNat
  | .lui _ _, _ => False
  | .lb _ _ _, _ | .lh _ _ _, _ | .lw _ _ _, _ | .lbu _ _ _, _ | .lhu _ _ _, _ => False
  | .sb _ _ _, _ | .sh _ _ _, _ | .sw _ _ _, _ => False
  | .addi _ _ _, _ | .slti _ _ _, _ | .sltiu _ _ _, _ | .xori _ _ _, _ | .ori _ _ _, _
  | .andi _ _ _, _ | .slli _ _ _, _ | .srli _ _ _, _ | .srai _ _ _, _ => False
  | .add _ _ _, _ | .sub _ _ _, _ | .sll _ _ _, _ | .slt _ _ _, _ | .sltu _ _ _, _
  | .xor _ _ _, _ | .srl _ _ _, _ | .sra _ _ _, _ | .or _ _ _, _ | .and _ _ _, _ => False
  | .mul _ _ _, _ | .mulh _ _ _, _ | .mulhsu _ _ _, _ | .mulhu _ _ _, _ | .div _ _ _, _
  | .divu _ _ _, _ | .rem _ _ _, _ | .remu _ _ _, _ => False
  | .ecall, _ | .ebreak, _ => False

/-- One of the instructions that may load the program counter (R33). -/
def loadsPc : Instr → Bool
  | .auipc _ _ | .jal _ _ | .jalr _ _ _ => true
  | .beq _ _ _ | .bne _ _ _ | .blt _ _ _ | .bge _ _ _ | .bltu _ _ _ | .bgeu _ _ _ => true
  | .lui _ _ => false
  | .lb _ _ _ | .lh _ _ _ | .lw _ _ _ | .lbu _ _ _ | .lhu _ _ _ => false
  | .sb _ _ _ | .sh _ _ _ | .sw _ _ _ => false
  | .addi _ _ _ | .slti _ _ _ | .sltiu _ _ _ | .xori _ _ _ | .ori _ _ _ | .andi _ _ _
  | .slli _ _ _ | .srli _ _ _ | .srai _ _ _ => false
  | .add _ _ _ | .sub _ _ _ | .sll _ _ _ | .slt _ _ _ | .sltu _ _ _ | .xor _ _ _ | .srl _ _ _
  | .sra _ _ _ | .or _ _ _ | .and _ _ _ => false
  | .mul _ _ _ | .mulh _ _ _ | .mulhsu _ _ _ | .mulhu _ _ _ | .div _ _ _ | .divu _ _ _
  | .rem _ _ _ | .remu _ _ _ => false
  | .ecall | .ebreak => false

/-- The target an instruction computes, checked for alignment before it is loaded (R161, R164). -/
def transferTarget : Instr → State → Option Word
  | .auipc _ imm, s | .jal _ imm, s => some (pcRelative imm s)
  | .jalr _ rs1 imm, s => some (jalrTarget rs1 imm s)
  | .beq _ _ imm, s | .bne _ _ imm, s | .blt _ _ imm, s | .bge _ _ imm, s | .bltu _ _ imm, s
  | .bgeu _ _ imm, s => some (pcRelative imm s)
  | .lui _ _, _ => none
  | .lb _ _ _, _ | .lh _ _ _, _ | .lw _ _ _, _ | .lbu _ _ _, _ | .lhu _ _ _, _ => none
  | .sb _ _ _, _ | .sh _ _ _, _ | .sw _ _ _, _ => none
  | .addi _ _ _, _ | .slti _ _ _, _ | .sltiu _ _ _, _ | .xori _ _ _, _ | .ori _ _ _, _
  | .andi _ _ _, _ | .slli _ _ _, _ | .srli _ _ _, _ | .srai _ _ _, _ => none
  | .add _ _ _, _ | .sub _ _ _, _ | .sll _ _ _, _ | .slt _ _ _, _ | .sltu _ _ _, _
  | .xor _ _ _, _ | .srl _ _ _, _ | .sra _ _ _, _ | .or _ _ _, _ | .and _ _ _, _ => none
  | .mul _ _ _, _ | .mulh _ _ _, _ | .mulhsu _ _ _, _ | .mulhu _ _ _, _ | .div _ _ _, _
  | .divu _ _ _, _ | .rem _ _ _, _ | .remu _ _ _, _ => none
  | .ecall, _ | .ebreak, _ => none

/-- The effective address of a load or store (R180). -/
def dataAddress : Instr → State → Option Word
  | .lb _ rs1 imm, s | .lh _ rs1 imm, s | .lw _ rs1 imm, s | .lbu _ rs1 imm, s
  | .lhu _ rs1 imm, s => some (effectiveAddress rs1 imm s)
  | .sb rs1 _ imm, s | .sh rs1 _ imm, s | .sw rs1 _ imm, s => some (effectiveAddress rs1 imm s)
  | .lui _ _, _ | .auipc _ _, _ | .jal _ _, _ | .jalr _ _ _, _ => none
  | .beq _ _ _, _ | .bne _ _ _, _ | .blt _ _ _, _ | .bge _ _ _, _ | .bltu _ _ _, _
  | .bgeu _ _ _, _ => none
  | .addi _ _ _, _ | .slti _ _ _, _ | .sltiu _ _ _, _ | .xori _ _ _, _ | .ori _ _ _, _
  | .andi _ _ _, _ | .slli _ _ _, _ | .srli _ _ _, _ | .srai _ _ _, _ => none
  | .add _ _ _, _ | .sub _ _ _, _ | .sll _ _ _, _ | .slt _ _ _, _ | .sltu _ _ _, _
  | .xor _ _ _, _ | .srl _ _ _, _ | .sra _ _ _, _ | .or _ _ _, _ | .and _ _ _, _ => none
  | .mul _ _ _, _ | .mulh _ _ _, _ | .mulhsu _ _ _, _ | .mulhu _ _ _, _ | .div _ _ _, _
  | .divu _ _ _, _ | .rem _ _ _, _ | .remu _ _ _, _ => none
  | .ecall, _ | .ebreak, _ => none

/-- The instruction is one of the three stores. -/
def isStore : Instr → Bool
  | .sb _ _ _ | .sh _ _ _ | .sw _ _ _ => true
  | .lui _ _ | .auipc _ _ | .jal _ _ | .jalr _ _ _ => false
  | .beq _ _ _ | .bne _ _ _ | .blt _ _ _ | .bge _ _ _ | .bltu _ _ _ | .bgeu _ _ _ => false
  | .lb _ _ _ | .lh _ _ _ | .lw _ _ _ | .lbu _ _ _ | .lhu _ _ _ => false
  | .addi _ _ _ | .slti _ _ _ | .sltiu _ _ _ | .xori _ _ _ | .ori _ _ _ | .andi _ _ _
  | .slli _ _ _ | .srli _ _ _ | .srai _ _ _ => false
  | .add _ _ _ | .sub _ _ _ | .sll _ _ _ | .slt _ _ _ | .sltu _ _ _ | .xor _ _ _ | .srl _ _ _
  | .sra _ _ _ | .or _ _ _ | .and _ _ _ => false
  | .mul _ _ _ | .mulh _ _ _ | .mulhsu _ _ _ | .mulhu _ _ _ | .div _ _ _ | .divu _ _ _
  | .rem _ _ _ | .remu _ _ _ => false
  | .ecall | .ebreak => false

/-- The instruction is one of the five loads. -/
def isLoad : Instr → Bool
  | .lb _ _ _ | .lh _ _ _ | .lw _ _ _ | .lbu _ _ _ | .lhu _ _ _ => true
  | .lui _ _ | .auipc _ _ | .jal _ _ | .jalr _ _ _ => false
  | .beq _ _ _ | .bne _ _ _ | .blt _ _ _ | .bge _ _ _ | .bltu _ _ _ | .bgeu _ _ _ => false
  | .sb _ _ _ | .sh _ _ _ | .sw _ _ _ => false
  | .addi _ _ _ | .slti _ _ _ | .sltiu _ _ _ | .xori _ _ _ | .ori _ _ _ | .andi _ _ _
  | .slli _ _ _ | .srli _ _ _ | .srai _ _ _ => false
  | .add _ _ _ | .sub _ _ _ | .sll _ _ _ | .slt _ _ _ | .sltu _ _ _ | .xor _ _ _ | .srl _ _ _
  | .sra _ _ _ | .or _ _ _ | .and _ _ _ => false
  | .mul _ _ _ | .mulh _ _ _ | .mulhsu _ _ _ | .mulhu _ _ _ | .div _ _ _ | .divu _ _ _
  | .rem _ _ _ | .remu _ _ _ => false
  | .ecall | .ebreak => false

/-- An event that only a store makes. -/
def Event.isVideo : Event → Bool
  | .video _ _ => true
  | _ => false

end Sys2Proof.Machine
end

