-- ==== Sys2Proof/Certificates/Slice0/Obligations.lean ====
section
/-! DEFINITION. The statements for the provers. EncodedBy, Computes, Redirects, RedirectsAndLinks,
OnlyAdvances, Faults, StoreRegs, ReadsByte, EcallKeeps and the Same… frames are defined in
Sys2Proof/Safety.lean. -/

open Sys2Proof
open Sys2Proof.Machine

/-- R93, R94, R96 to R104: no bit of an encoding is dropped. The layouts of the immediates and the funct3 values are the
spec's general-knowledge passages G2 to G4 (log 17); the bytes are little-endian (log 6). -/
def Obligations.DecodeEncodeGivesBackEveryInstruction : Prop :=
  ∀ i : Instr, i.wf = true →
    decodeWord (encode i) = .ok i ∧
    ∀ rest : List Byte,
      decode (byteOfWord (encode i) 0 :: byteOfWord (encode i) 1 :: byteOfWord (encode i) 2 ::
        byteOfWord (encode i) 3 :: rest) = .ok (i, rest)

/-- R95 to R102, over every word. Rests on G2 (log 17). -/
def Obligations.DecodedInstructionIsWellFormed : Prop :=
  ∀ (w : Word) (i : Instr), decodeWord w = .ok i → i.wf = true

/-- R104 against the group rules R103 and R105 to R111, which the decoder is written from. Rests on the spec's D11, D12 and
G3 (log 16, log 17). -/
def Obligations.DecoderFollowsTheOpcodeTable : Prop :=
  opcodeTable.length = 47 ∧ ∀ w : Word,
    (∀ i, decodeWord w = .ok i → i.row.Matches w ∧ i.row ∈ opcodeTable) ∧
    (∀ r ∈ opcodeTable, r.Matches w → ∃ i, decodeWord w = .ok i ∧ i.row = r) ∧
    ((∀ r ∈ opcodeTable, ¬ r.Matches w) → ∃ why, decodeWord w = .error why)

/-- Vectors S1, V1, V13, V20, V57, V98, V111, V112, V120 and the worked words of R183, R188, R222. That SLLI's funct7, JALR's
funct3 and bits 24:7 of SYSTEM words are not examined (0x40001013, 0x0000a067, 0x00100073) is the spec's D11 (log 16); the
layouts and funct3 values are G2, G3 (log 17). -/
def Obligations.SampleWordsDecodeAsWrittenOut : Prop :=
  decodeWord 0xFFF00093#32 = .ok (.addi 1 0 0xFFFFFFFF#32) ∧
  decodeWord 0x123452b7#32 = .ok (.lui 5 0x12345000#32) ∧
  decodeWord 0x001000ef#32 = .ok (.jal 1 0x800#32) ∧
  decodeWord 0xfe209ee3#32 = .ok (.bne 1 2 0xFFFFFFFC#32) ∧
  decodeWord 0x00830283#32 = .ok (.lb 5 6 8#32) ∧
  decodeWord 0x007002a3#32 = .ok (.sb 0 7 5#32) ∧
  decodeWord 0x407302b3#32 = .ok (.sub 5 6 7) ∧
  decodeWord 0x027342b3#32 = .ok (.div 5 6 7) ∧
  decodeWord 0x40001013#32 = .ok (.slli 0 0 0) ∧
  decodeWord 0x0000a067#32 = .ok (.jalr 0 1 0#32) ∧
  decodeWord 0x00100073#32 = .ok .ecall ∧
  decodeWord 0x02000073#32 = .ok .ebreak

/-- R113. That the tick ends in a next state whose status is faulted is the model's form (log 9); the unlisted funct7 values are
the spec's D12, the funct3 values its G3 and the numbers of the floating-point opcodes PRESUMED (log 17). -/
def Obligations.UnmatchedWordIsADecodeFault : Prop :=
  (∀ (s : State), s.Ready → wordIndex s.pc < s.params.romWords →
    (∀ r ∈ opcodeTable, ¬ r.Matches (s.rom.wordAt (wordIndex s.pc))) →
    ∃ t, step s = .next t ∧ Faults (.decodeFault (s.rom.wordAt (wordIndex s.pc))) s t ∧
      step t = .fault (.faulted (.decodeFault (s.rom.wordAt (wordIndex s.pc))))) ∧
  ∀ w : Word,
    (w.extractLsb' 0 2 ≠ 0b11#2 ∨ w = 0 ∨ w = 0xFFFFFFFF#32 ∨
      opcodeOf w ∈ [0b0001111#7, 0b0101111#7] ∨
      opcodeOf w ∈ [0b0000111#7, 0b0100111#7, 0b1000011#7, 0b1000111#7, 0b1001011#7, 0b1001111#7,
        0b1010011#7] ∨
      (opcodeOf w = 0b0110011#7 ∧ funct7Of w ∉ [0b0000000#7, 0b0100000#7, 0b0000001#7]) ∨
      (opcodeOf w = 0b0110011#7 ∧ funct7Of w = 0b0100000#7 ∧ funct3Of w ∉ [0b000#3, 0b101#3]) ∨
      (opcodeOf w = 0b0010011#7 ∧ funct3Of w = 0b101#3 ∧
        funct7Of w ∉ [0b0000000#7, 0b0100000#7]) ∨
      (opcodeOf w = 0b1100011#7 ∧ funct3Of w ∈ [0b010#3, 0b011#3]) ∨
      (opcodeOf w = 0b0000011#7 ∧ funct3Of w ∈ [0b011#3, 0b110#3, 0b111#3]) ∨
      (opcodeOf w = 0b0100011#7 ∧ 0b011#3 ≤ funct3Of w) ∨
      (opcodeOf w = 0b1110011#7 ∧ funct7Of w ∉ [0b0000000#7, 0b0000001#7])) →
    ∀ r ∈ opcodeTable, ¬ r.Matches w

/-- R131, R132, R140. Fetch in the instruction's own tick is the spec's D2; the byte layout is log 6. -/
def Obligations.StepRunsTheDecodedInstruction : Prop :=
  ∀ (s : State) (i : Instr), s.Ready → wordIndex s.pc < s.params.romWords →
    decode [s.rom.byteAt (4 * wordIndex s.pc), s.rom.byteAt (4 * wordIndex s.pc + 1),
      s.rom.byteAt (4 * wordIndex s.pc + 2), s.rom.byteAt (4 * wordIndex s.pc + 3)] = .ok (i, []) →
    step s = exec i s

/-- R287 with R131, R281. The order is the spec's D26, the recorded values its D28. -/
def Obligations.StepTakesTheFirstFetchFault : Prop :=
  ∀ s : State, s.Ready →
    (s.params.romWords ≤ s.pc.toNat / 4 →
      ∃ t, step s = .next t ∧ Faults (.indexFault .rom (s.pc.toNat / 4)) s t) ∧
    (s.pc.toNat / 4 < s.params.romWords →
      (∃ why, decodeWord (s.rom.wordAt (s.pc.toNat / 4)) = .error why) →
      ∃ t, step s = .next t ∧ Faults (.decodeFault (s.rom.wordAt (s.pc.toNat / 4))) s t)

/-- R139. That pc holds, and that no fault is raised early, is the spec's D15 (log 23). -/
def Obligations.IdleTickOnlyCountsDown : Prop :=
  ∀ s : State, s.Live → s.bubble ≠ 0 →
    ∃ t, step s = .next t ∧ t.bubble.val + 1 = s.bubble.val ∧ t.pc = s.pc ∧
      SameRegs s t ∧ SameMemory s t ∧ SameWorld s t ∧ SameRun s t

/-- R138. Only a committed instruction counts: one that faults changes the status. That the next two steps change only
the counter is R139 under the spec's D15 (pc holds, no fault is raised early; log 23). -/
def Obligations.RedirectingInstructionsStartTheBubble : Prop :=
  ∀ (i : Instr) (s t : State), exec i s = .next t → t.status = s.status → s.Live →
    (Redirecting i s → t.bubble = 2 ∧ step t = .next { t with bubble := 1 } ∧
      core.run 2 t = .next { t with bubble := 0 }) ∧
    (¬ Redirecting i s → t.bubble = s.bubble)

/-- S7 and R139, R318. Rests on the spec's D15 (pc holds; log 23). -/
def Obligations.RedirectIsFollowedByTwoIdleTicks : Prop :=
  ∀ s t : State, s.Ready → step s = .next t → t.Live → t.bubble ≠ 0 →
    t.bubble = 2 ∧ core.run 1 t = .next { t with bubble := 1 } ∧
    core.run 2 t = .next { t with bubble := 0 }

/-- R42. That the stop is an outcome of its own is the model's form (log 9). -/
def Obligations.EndedRunTakesNoTick : Prop :=
  ∀ s : State, (∀ f, s.status = .faulted f → step s = .fault (.faulted f)) ∧
    (∀ c, s.status = .exited c → step s = .fault (.exited c))

/-- R141, R284. A waiting tick (log 7) and a fault taken (log 9) are next states. -/
def Obligations.LiveStepAlwaysAnswers : Prop :=
  ∀ s : State, s.Live → s.params.divOverflow ≠ .refuse → s.params.remOverflow ≠ .refuse →
    ∃ t, step s = .next t

/-- R250 (D7), R284. -/
def Obligations.ExecStopsOnlyOnRefusedOverflow : Prop :=
  ∀ (i : Instr) (s : State),
    (∃ t, exec i s = .next t) ∨
    (∃ rd rs1 rs2, i = .div rd rs1 rs2 ∧ s.x rs1 = 0x80000000#32 ∧ s.x rs2 = 0xFFFFFFFF#32 ∧
      s.params.divOverflow = .refuse ∧ exec i s = .refused .divOverflow) ∨
    (∃ rd rs1 rs2, i = .rem rd rs1 rs2 ∧ s.x rs1 = 0x80000000#32 ∧ s.x rs2 = 0xFFFFFFFF#32 ∧
      s.params.remOverflow = .refuse ∧ exec i s = .refused .remOverflow)

/-- R143, R266. The register numbers are the spec's D20, the 32-bit status its D24. -/
def Obligations.RunEndsByExitOnlyThroughServiceTen : Prop :=
  ∀ s : State, s.Live →
    (∀ t c, step s = .next t → t.status = .exited c →
      s.bubble = 0 ∧ fetchInstr s = .ok .ecall ∧ s.x 17 = 10 ∧ c = s.x 10) ∧
    (s.bubble = 0 → fetchInstr s = .ok .ecall → s.x 17 = 10 →
      ∃ t, step s = .next t ∧ t.status = .exited (s.x 10))

/-- R280 to R283. The recorded values are the spec's D28, the range checks its D16, D17, D22, the check of a branch's
computed target its D13 (log 18), AUIPC's target its D9 (log 20), the register numbers its D20 (log 17); the fault as a
next state is the model's form (log 9). transferTarget and dataAddress read pcRelative, jalrTarget and effectiveAddress. -/
def Obligations.FaultsHaveOnlyTheThreeCauses : Prop :=
  ∀ (s t : State) (f : FaultRecord), s.Live → step s = .next t → t.status = .faulted f →
    (f = .indexFault .rom (s.pc.toNat / 4) ∧ s.params.romWords ≤ s.pc.toNat / 4) ∨
    (f = .decodeFault (s.rom.wordAt (s.pc.toNat / 4)) ∧
      ∀ r ∈ opcodeTable, ¬ r.Matches (s.rom.wordAt (s.pc.toNat / 4))) ∨
    (∃ i tgt, fetchInstr s = .ok i ∧ transferTarget i s = some tgt ∧
      f = .alignmentFault tgt ∧ tgt.toNat % 4 ≠ 0) ∨
    (∃ i ea, fetchInstr s = .ok i ∧ dataAddress i s = some ea ∧
      f = .indexFault .ram (ea.toNat / 4) ∧ s.params.ramWords ≤ ea.toNat / 4 ∧
      (isStore i = true → ea.toNat < 0x00400000)) ∨
    (fetchInstr s = .ok .ecall ∧ s.x 17 = 4 ∧ (s.x 11).toNat ≠ 0 ∧
      s.params.romWords < (s.x 10).toNat / 4 + (s.x 11).toNat ∧
      f = .indexFault .rom (max ((s.x 10).toNat / 4) s.params.romWords))

/-- R288 (the spec's D14), R265. -/
def Obligations.FaultingInstructionCommitsNothing : Prop :=
  ∀ (i : Instr) (s t : State) (f : FaultRecord), s.Live → exec i s = .next t →
    t.status = .faulted f →
    SameRegs s t ∧ t.pc = s.pc ∧ t.bubble = s.bubble ∧ SameMemory s t ∧ t.params = s.params ∧
    t.hostInput = s.hostInput ∧ t.hostInputEnded = s.hostInputEnded ∧ t.freeCount = s.freeCount ∧
    (i ≠ .ecall → t.events = s.events) ∧
    ∃ bytes : List Byte, t.events = s.events ++ bytes.map .writeByte

/-- R142 with the tick counts of R318. R142 is the spec's own inference (D31). -/
def Obligations.InstructionLevelViewAgrees : Prop :=
  ∀ (n : Nat) (s : State), s.bubble = 0 →
    (∀ t : State, instrCore.run n s = .next t →
      t.bubble = 0 ∧ ∃ k, n ≤ k ∧ k ≤ 3 * n ∧ core.run k s = .next t) ∧
    (∀ f : Fault, instrCore.run n s = .fault f → ∃ k, k ≤ 3 * n ∧ core.run k s = .fault f) ∧
    (∀ r : Refusal, instrCore.run n s = .refused r → ∃ k, k ≤ 3 * n ∧ core.run k s = .refused r)

/-- R45, the spec's D3 (log 1); the parameters of State.reset and its host fields are the model's choice (log 2, log 7). -/
def Obligations.BootGivesEveryStateItsResetValue : Prop :=
  State.reset = State.boot Config.resetParams [] ∧
  ∀ (p : Params) (image : List Word), image.length ≤ p.romWords →
    (State.boot p image).pc = 0 ∧ (∀ r, (State.boot p image).x r = 0) ∧
    (State.boot p image).bubble = 0 ∧ (State.boot p image).status = .running ∧
    (State.boot p image).params = p ∧ (State.boot p image).events = [] ∧
    (∀ i, (State.boot p image).ram.wordAt i = 0) ∧
    (∀ (i : Nat) (h : i < image.length), romWord (State.boot p image) i = .ok image[i]) ∧
    ∀ i, image.length ≤ i → i < p.romWords → romWord (State.boot p image) i = .ok 0

/-- R45, R30, R8, R310, R312. The parameters of State.reset are the model's choice (log 2), the canonical form its own (log 6);
that the image fits is R8 under log 22. -/
def Obligations.ResetSatisfiesTheInvariant : Prop :=
  State.reset.Inv ∧
  ∀ (p : Params) (image : List Word), p.Valid → image.length ≤ p.romWords →
    (State.boot p image).Inv

/-- R30 ("value is always a multiple of 4"), R36, R37. The canonical form is the model's own (log 6). -/
def Obligations.StepKeepsTheInvariant : Prop :=
  ∀ s t : State, s.Inv → step s = .next t → t.Inv

/-- R26. That x0 has no storage is the spec's D4 (log 15). -/
def Obligations.RegisterZeroReadsZero : Prop :=
  (∀ s : State, s.x 0 = 0) ∧
  (∀ (s : State) (v : Word) (r : RegIdx),
    (commit { rdWrite := some (0, v) } s).x r = s.x r ∧
    (commit { rdWrite := some (0, v) } s).x 0 = 0) ∧
  ∀ (k : Nat) (s t : State), core.run k s = .next t → t.x 0 = 0

/-- R23, R28, R29 (R29 is the spec's own inference). -/
def Obligations.RegisterWriteThenRead : Prop :=
  ∀ (e : Effects) (s : State),
    (∀ rd v, e.rdWrite = some (rd, v) → RegsBut rd v s (commit e s)) ∧
    (e.rdWrite = none → SameRegs s (commit e s))

/-- R62, R65, R73: RAM is an array of words. The canonical form and the bytes are the model's (log 6). -/
def Obligations.MemoryWriteThenRead : Prop :=
  ∀ (m : Memory) (i : Nat) (w : Word), m.wf = true →
    (m.setWord i w).wordAt i = w ∧
    (∀ a, a / 4 ≠ i → (m.setWord i w).byteAt a = m.byteAt a) ∧
    (m.setWord i w).wf = true ∧ m.setWord i (m.wordAt i) = m

/-- The form of the model's memory (log 6): an unlisted address reads 0, R45's reset value. -/
def Obligations.CanonicalMemoriesAreEqualWhenTheyReadEqual : Prop :=
  ∀ m m' : Memory, m.wf = true → m'.wf = true → (∀ a, m.byteAt a = m'.byteAt a) → m = m'

/-- R76. -/
def Obligations.InstructionSpaceNeverChanges : Prop :=
  ∀ (k : Nat) (s t : State), core.run k s = .next t →
    t.rom = s.rom ∧ t.params = s.params ∧ ∀ addr, romRead t addr = romRead s addr

/-- R32 (the spec's own inference), R33. The wait is the model's form (log 7), the service register the spec's D20 (log 17). -/
def Obligations.OnlyControlTransfersLeaveTheSequence : Prop :=
  ∀ (i : Instr) (s t : State), exec i s = .next t → t.status = s.status → s.Live →
    loadsPc i = false → t.pc = s.pc + 4 ∨
      (i = .ecall ∧ s.x 17 = 1 ∧ s.hostInput = [] ∧ s.hostInputEnded = false ∧ t = s)

/-- R37, R65. The threshold on the unsigned byte address is the spec's D30, the fault of a store past the array its D16. -/
def Obligations.OnlyStoresWriteRam : Prop :=
  ∀ (i : Instr) (s t : State), exec i s = .next t →
    (isStore i = false → ∀ a, t.ram.byteAt a = s.ram.byteAt a) ∧
    ∀ (rs1 rs2 : RegIdx) (imm : Word),
      i ∈ [Instr.sb rs1 rs2 imm, .sh rs1 rs2 imm, .sw rs1 rs2 imm] →
      ∀ a, (a / 4 ≠ (effectiveAddress rs1 imm s).toNat / 4 ∨
          0x00400000 ≤ (effectiveAddress rs1 imm s).toNat ∨
          s.params.ramWords ≤ (effectiveAddress rs1 imm s).toNat / 4) →
        t.ram.byteAt a = s.ram.byteAt a

/-- R73, R261. One list for all calls is the model's form (log 11). -/
def Obligations.EventsOnlyGrow : Prop :=
  ∀ (i : Instr) (s t : State), exec i s = .next t →
    ∃ new : List Event, t.events = s.events ++ new ∧
      (i ≠ .ecall → isStore i = false → new = []) ∧
      (isStore i = true → ∀ c ∈ new, c.isVideo = true) ∧
      (i = .ecall → ∀ c ∈ new, c.isVideo = false)

/-- R286 (nothing asynchronous), R261 (only ECALL calls the host). -/
def Obligations.HostInputReachesOnlyEcall : Prop :=
  ∀ (i : Instr) (s : State) (q : List Byte) (e : Bool), i ≠ .ecall →
    (∀ t, exec i s = .next t →
      exec i { s with hostInput := q, hostInputEnded := e } =
        .next { t with hostInput := q, hostInputEnded := e }) ∧
    (∀ r, exec i s = .refused r →
      exec i { s with hostInput := q, hostInputEnded := e } = .refused r)

/-- How a program comes to run (log 10): the word stands for the loader's. -/
def Obligations.WithFetchWordRunsThatWord : Prop :=
  ∀ (s : State) (w : Word) (i : Instr), s.rom.wf = true → decodeWord w = .ok i →
    step (s.withFetchWord 32 w.toNat) = exec i (s.withFetchWord 32 w.toNat)

/-- R151: the value is the spec's D9 (log 20), the layout behind immU its G2 (log 17). -/
def Obligations.LuiWritesTheUpperImmediate : Prop :=
  EncodedBy 0x0000007f#32 0x00000037#32 (fun w => .lui (rdOf w) (immU w)) ∧
  ∀ (rd : RegIdx) (imm : Word) (s : State),
    ∃ t, exec (.lui rd imm) s = .next t ∧ Computes rd imm s t

/-- R152: the target is the spec's D9 (log 20), the layout behind immU its G2 (log 17). -/
def Obligations.AuipcJumpsAndWritesNoRegister : Prop :=
  EncodedBy 0x0000007f#32 0x00000017#32 (fun w => .auipc (rdOf w) (immU w)) ∧
  (∀ (rd : RegIdx) (imm : Word) (s : State), (s.pc + imm).toNat % 4 = 0 →
    ∃ t, exec (.auipc rd imm) s = .next t ∧ Redirects (s.pc + imm) s t) ∧
  ∀ (pc imm : Word), aligned pc = true → fitsU imm = true → (pc + imm).toNat % 4 = 0

/-- R162. The layout behind immJ is G2 (log 17); the fault as a next state is the model's form (log 9). -/
def Obligations.JalLinksAndJumps : Prop :=
  EncodedBy 0x0000007f#32 0x0000006f#32 (fun w => .jal (rdOf w) (immJ w)) ∧
  ∀ (rd : RegIdx) (imm : Word) (s : State),
    ((s.pc + imm).toNat % 4 = 0 →
      ∃ t, exec (.jal rd imm) s = .next t ∧ RedirectsAndLinks rd (s.pc + imm) s t) ∧
    ((s.pc + imm).toNat % 4 ≠ 0 →
      ∃ t, exec (.jal rd imm) s = .next t ∧ Faults (.alignmentFault (s.pc + imm)) s t)

/-- R163. That every word of the opcode is JALR, whatever funct3 holds, is R111 under the spec's D11 (log 16); the layout
behind immI is G2 (log 17); the fault as a next state is the model's form (log 9). -/
def Obligations.JalrLinksAndJumps : Prop :=
  EncodedBy 0x0000007f#32 0x00000067#32 (fun w => .jalr (rdOf w) (rs1Of w) (immI w)) ∧
  ∀ (rd rs1 : RegIdx) (imm : Word) (s : State),
    ((s.x rs1 + imm).getLsbD 1 = false →
      ∃ t, exec (.jalr rd rs1 imm) s = .next t ∧
        RedirectsAndLinks rd ((s.x rs1 + imm) &&& 0xFFFFFFFE#32) s t) ∧
    ((s.x rs1 + imm).getLsbD 1 = true →
      ∃ t, exec (.jalr rd rs1 imm) s = .next t ∧
        Faults (.alignmentFault ((s.x rs1 + imm) &&& 0xFFFFFFFE#32)) s t)

/-- The Encoding lines of R165 to R170. Layout and funct3 values are G2, G3 (log 17). -/
def Obligations.BranchWordsDecode : Prop :=
  EncodedBy 0x0000707f#32 0x00000063#32 (fun w => .beq (rs1Of w) (rs2Of w) (immB w)) ∧
  EncodedBy 0x0000707f#32 0x00001063#32 (fun w => .bne (rs1Of w) (rs2Of w) (immB w)) ∧
  EncodedBy 0x0000707f#32 0x00004063#32 (fun w => .blt (rs1Of w) (rs2Of w) (immB w)) ∧
  EncodedBy 0x0000707f#32 0x00005063#32 (fun w => .bge (rs1Of w) (rs2Of w) (immB w)) ∧
  EncodedBy 0x0000707f#32 0x00006063#32 (fun w => .bltu (rs1Of w) (rs2Of w) (immB w)) ∧
  EncodedBy 0x0000707f#32 0x00007063#32 (fun w => .bgeu (rs1Of w) (rs2Of w) (immB w))

/-- R164 to R170. R164's check of the computed target is the spec's D13 (log 18). -/
def Obligations.BranchesGoWhereTheirConditionSays : Prop :=
  ∀ (rs1 rs2 : RegIdx) (imm : Word) (s : State), (s.pc + imm).toNat % 4 = 0 →
    ∀ p ∈ ([(.beq rs1 rs2 imm, s.x rs1 = s.x rs2),
        (.bne rs1 rs2 imm, s.x rs1 ≠ s.x rs2),
        (.blt rs1 rs2 imm, (s.x rs1).toInt < (s.x rs2).toInt),
        (.bge rs1 rs2 imm, (s.x rs2).toInt ≤ (s.x rs1).toInt),
        (.bltu rs1 rs2 imm, (s.x rs1).toNat < (s.x rs2).toNat),
        (.bgeu rs1 rs2 imm, (s.x rs2).toNat ≤ (s.x rs1).toNat)] : List (Instr × Prop)),
      (p.2 → ∃ t, exec p.1 s = .next t ∧ Redirects (s.pc + imm) s t) ∧
      (¬ p.2 → ∃ t, exec p.1 s = .next t ∧ OnlyAdvances s t)

/-- R164: the check on an untaken branch is the spec's D13 (log 18). -/
def Obligations.BranchesFaultOnAMisalignedTarget : Prop :=
  ∀ (rs1 rs2 : RegIdx) (imm : Word) (s : State), (s.pc + imm).toNat % 4 ≠ 0 →
    ∀ i ∈ [Instr.beq rs1 rs2 imm, .bne rs1 rs2 imm, .blt rs1 rs2 imm, .bge rs1 rs2 imm,
        .bltu rs1 rs2 imm, .bgeu rs1 rs2 imm],
      ∃ t, exec i s = .next t ∧ Faults (.alignmentFault (s.pc + imm)) s t

/-- The Encoding lines of R183 to R190. Layout and funct3 values are G2, G3 (log 17). -/
def Obligations.LoadAndStoreWordsDecode : Prop :=
  EncodedBy 0x0000707f#32 0x00000003#32 (fun w => .lb (rdOf w) (rs1Of w) (immI w)) ∧
  EncodedBy 0x0000707f#32 0x00001003#32 (fun w => .lh (rdOf w) (rs1Of w) (immI w)) ∧
  EncodedBy 0x0000707f#32 0x00002003#32 (fun w => .lw (rdOf w) (rs1Of w) (immI w)) ∧
  EncodedBy 0x0000707f#32 0x00004003#32 (fun w => .lbu (rdOf w) (rs1Of w) (immI w)) ∧
  EncodedBy 0x0000707f#32 0x00005003#32 (fun w => .lhu (rdOf w) (rs1Of w) (immI w)) ∧
  EncodedBy 0x0000707f#32 0x00000023#32 (fun w => .sb (rs1Of w) (rs2Of w) (immS w)) ∧
  EncodedBy 0x0000707f#32 0x00001023#32 (fun w => .sh (rs1Of w) (rs2Of w) (immS w)) ∧
  EncodedBy 0x0000707f#32 0x00002023#32 (fun w => .sw (rs1Of w) (rs2Of w) (immS w))

/-- R180 to R187. Word-only transfers are the spec's D6, the load's timing its D25 (log 5). -/
def Obligations.LoadsReadTheWholeWord : Prop :=
  ∀ (rd rs1 : RegIdx) (imm : Word) (s : State),
    (s.x rs1 + imm).toNat / 4 < s.params.ramWords →
    ∀ i ∈ [Instr.lb rd rs1 imm, .lh rd rs1 imm, .lw rd rs1 imm, .lbu rd rs1 imm, .lhu rd rs1 imm],
      ∃ t, exec i s = .next t ∧ Computes rd (s.ram.wordAt ((s.x rs1 + imm).toNat / 4)) s t

/-- R64, R182: that loads are not redirected is the spec's D17 (log 19). -/
def Obligations.LoadsPastRamFault : Prop :=
  ∀ (rd rs1 : RegIdx) (imm : Word) (s : State),
    s.params.ramWords ≤ (s.x rs1 + imm).toNat / 4 →
    ∀ i ∈ [Instr.lb rd rs1 imm, .lh rd rs1 imm, .lw rd rs1 imm, .lbu rd rs1 imm, .lhu rd rs1 imm],
      ∃ t, exec i s = .next t ∧ Faults (.indexFault .ram ((s.x rs1 + imm).toNat / 4)) s t

/-- R188 to R191. No register write is the spec's D10; the clobbered value is free (log 4). -/
def Obligations.StoresReplaceTheWholeRamWord : Prop :=
  ∀ (rs1 rs2 : RegIdx) (imm : Word) (s : State), s.ram.wf = true →
    (effectiveAddress rs1 imm s).toNat < 0x00400000 →
    (effectiveAddress rs1 imm s).toNat / 4 < s.params.ramWords →
    ∀ i ∈ [Instr.sb rs1 rs2 imm, .sh rs1 rs2 imm, .sw rs1 rs2 imm],
      ∃ t, exec i s = .next t ∧
        t.ram.wordAt ((effectiveAddress rs1 imm s).toNat / 4) = s.x rs2 ∧
        (∀ a, a / 4 ≠ (effectiveAddress rs1 imm s).toNat / 4 →
          t.ram.byteAt a = s.ram.byteAt a) ∧
        (∀ a, t.rom.byteAt a = s.rom.byteAt a) ∧
        StoreRegs imm s t ∧ t.pc = s.pc + 4 ∧ t.bubble = s.bubble ∧ SameRun s t ∧
        t.events = s.events ∧ t.hostInput = s.hostInput ∧ t.hostInputEnded = s.hostInputEnded

/-- R65, R66: what the collaborator is given is the spec's D18 (log 12), the threshold on the unsigned byte address its D30;
the event list is the model's form (log 11). R188 to R191: no register write is the spec's D10; the clobbered value, for
a store to the window too, is free (log 4). -/
def Obligations.StoresToTheVideoWindow : Prop :=
  ∀ (rs1 rs2 : RegIdx) (imm : Word) (s : State),
    0x00400000 ≤ (s.x rs1 + imm).toNat →
    ∀ i ∈ [Instr.sb rs1 rs2 imm, .sh rs1 rs2 imm, .sw rs1 rs2 imm],
      ∃ t, exec i s = .next t ∧
        t.events = s.events ++ [.video (s.x rs1 + imm - 0x00400000#32) (s.x rs2)] ∧
        SameMemory s t ∧ StoreRegs imm s t ∧ t.pc = s.pc + 4 ∧ t.bubble = s.bubble ∧
        SameRun s t ∧ t.hostInput = s.hostInput ∧ t.hostInputEnded = s.hostInputEnded

/-- R65, R188. The hole below the window is the spec's D16. -/
def Obligations.StoresPastRamFault : Prop :=
  ∀ (rs1 rs2 : RegIdx) (imm : Word) (s : State),
    (s.x rs1 + imm).toNat < 0x00400000 → s.params.ramWords ≤ (s.x rs1 + imm).toNat / 4 →
    ∀ i ∈ [Instr.sb rs1 rs2 imm, .sh rs1 rs2 imm, .sw rs1 rs2 imm],
      ∃ t, exec i s = .next t ∧ Faults (.indexFault .ram ((s.x rs1 + imm).toNat / 4)) s t

/-- R73, R74 (the spec's own inference), R68. That rd holds the word in the load's own next state is R75 under the spec's
D25: a load-use delay of 0 (log 5). -/
def Obligations.LoadSeesTheStoreBeforeIt : Prop :=
  ∀ (rs1 rs2 : RegIdx) (imm : Word) (s t : State), s.ram.wf = true →
    (s.x rs1 + imm).toNat < 0x00400000 → (s.x rs1 + imm).toNat / 4 < s.params.ramWords →
    ∀ st ∈ [Instr.sb rs1 rs2 imm, .sh rs1 rs2 imm, .sw rs1 rs2 imm], exec st s = .next t →
    ∀ (rd rs1' : RegIdx) (imm' : Word),
      (t.x rs1' + imm').toNat / 4 = (s.x rs1 + imm).toNat / 4 →
      ∀ ld ∈ [Instr.lb rd rs1' imm', .lh rd rs1' imm', .lw rd rs1' imm', .lbu rd rs1' imm',
          .lhu rd rs1' imm'],
        ∃ u, exec ld t = .next u ∧ u.x rd = if rd = 0 then 0 else s.x rs2

/-- R200 (pc), R201, R202, R204 to R206. The I layout behind the decoding is the spec's G2, the funct3 values its G3
(log 17). -/
def Obligations.ImmediateArithmeticAndLogic : Prop :=
  EncodedBy 0x0000707f#32 0x00000013#32 (fun w => .addi (rdOf w) (rs1Of w) (immI w)) ∧
  EncodedBy 0x0000707f#32 0x00002013#32 (fun w => .slti (rdOf w) (rs1Of w) (immI w)) ∧
  EncodedBy 0x0000707f#32 0x00004013#32 (fun w => .xori (rdOf w) (rs1Of w) (immI w)) ∧
  EncodedBy 0x0000707f#32 0x00006013#32 (fun w => .ori (rdOf w) (rs1Of w) (immI w)) ∧
  EncodedBy 0x0000707f#32 0x00007013#32 (fun w => .andi (rdOf w) (rs1Of w) (immI w)) ∧
  ∀ (rd rs1 : RegIdx) (imm : Word) (s : State),
    (∃ t, exec (.addi rd rs1 imm) s = .next t ∧ Computes rd (BitVec.ofNat 32 ((s.x rs1).toNat + imm.toNat)) s t) ∧
    (∃ t, exec (.slti rd rs1 imm) s = .next t ∧ Computes rd (if (s.x rs1).toInt < imm.toInt then 1 else 0) s t) ∧
    (∃ t, exec (.xori rd rs1 imm) s = .next t ∧ Computes rd (s.x rs1 ^^^ imm) s t) ∧
    (∃ t, exec (.ori rd rs1 imm) s = .next t ∧ Computes rd (s.x rs1 ||| imm) s t) ∧
    (∃ t, exec (.andi rd rs1 imm) s = .next t ∧ Computes rd (s.x rs1 &&& imm) s t)

/-- R203: the sign-extended reading is the spec's own inference from R95 and R96. The I layout is
its G2, the funct3 value its G3 (log 17). -/
def Obligations.SltiuComparesWithTheSignExtendedImmediate : Prop :=
  EncodedBy 0x0000707f#32 0x00003013#32 (fun w => .sltiu (rdOf w) (rs1Of w) (immI w)) ∧
  ∀ (rd rs1 : RegIdx) (imm : Word) (s : State),
    (∃ t, exec (.sltiu rd rs1 imm) s = .next t ∧ Computes rd (if (s.x rs1).toNat < imm.toNat then 1 else 0) s t) ∧
    ∃ t, exec (.sltiu rd rs1 0xFFFFFFFF#32) s = .next t ∧
      Computes rd (if s.x rs1 = 0xFFFFFFFF#32 then 0 else 1) s t

/-- R207 to R209: zeros enter in the logical shifts, copies of bit 31 in the arithmetic one; pc + 4 is R200's.
That SLLI's bits 31:25 are not examined is R107 under the spec's D11 (log 16); the place of the amount is R101; the funct3
and funct7 values are G3 (log 17). -/
def Obligations.ImmediateShifts : Prop :=
  EncodedBy 0x0000707f#32 0x00001013#32 (fun w => .slli (rdOf w) (rs1Of w) (shamtOf w)) ∧
  EncodedBy 0xfe00707f#32 0x00005013#32 (fun w => .srli (rdOf w) (rs1Of w) (shamtOf w)) ∧
  EncodedBy 0xfe00707f#32 0x40005013#32 (fun w => .srai (rdOf w) (rs1Of w) (shamtOf w)) ∧
  ∀ (rd rs1 : RegIdx) (n : ShiftAmount) (s : State),
    (∃ t, exec (.slli rd rs1 n) s = .next t ∧ Computes rd (BitVec.ofNat 32 ((s.x rs1).toNat * 2 ^ n.val)) s t) ∧
    (∃ t, exec (.srli rd rs1 n) s = .next t ∧ Computes rd (BitVec.ofNat 32 ((s.x rs1).toNat / 2 ^ n.val)) s t) ∧
    (∃ t, exec (.srai rd rs1 n) s = .next t ∧ Computes rd (BitVec.ofInt 32 ((s.x rs1).toInt / 2 ^ n.val)) s t)

/-- R220 (pc), R221, R222, R226, R229, R230. The funct3 and funct7 values of the decoding are the spec's G3 (log 17). -/
def Obligations.RegisterArithmeticAndLogic : Prop :=
  EncodedBy 0xfe00707f#32 0x00000033#32 (fun w => .add (rdOf w) (rs1Of w) (rs2Of w)) ∧
  EncodedBy 0xfe00707f#32 0x40000033#32 (fun w => .sub (rdOf w) (rs1Of w) (rs2Of w)) ∧
  EncodedBy 0xfe00707f#32 0x00004033#32 (fun w => .xor (rdOf w) (rs1Of w) (rs2Of w)) ∧
  EncodedBy 0xfe00707f#32 0x00006033#32 (fun w => .or (rdOf w) (rs1Of w) (rs2Of w)) ∧
  EncodedBy 0xfe00707f#32 0x00007033#32 (fun w => .and (rdOf w) (rs1Of w) (rs2Of w)) ∧
  ∀ (rd rs1 rs2 : RegIdx) (s : State),
    (∃ t, exec (.add rd rs1 rs2) s = .next t ∧ Computes rd (BitVec.ofNat 32 ((s.x rs1).toNat + (s.x rs2).toNat)) s t) ∧
    (∃ t, exec (.sub rd rs1 rs2) s = .next t ∧ Computes rd (BitVec.ofInt 32 (((s.x rs1).toNat : Int) - (s.x rs2).toNat)) s t) ∧
    (∃ t, exec (.xor rd rs1 rs2) s = .next t ∧ Computes rd (s.x rs1 ^^^ s.x rs2) s t) ∧
    (∃ t, exec (.or rd rs1 rs2) s = .next t ∧ Computes rd (s.x rs1 ||| s.x rs2) s t) ∧
    (∃ t, exec (.and rd rs1 rs2) s = .next t ∧ Computes rd (s.x rs1 &&& s.x rs2) s t)

/-- R220 (pc), R223 to R225, R227, R228. The funct3 and funct7 values of the decoding are the spec's G3 (log 17). -/
def Obligations.RegisterComparisonsAndShifts : Prop :=
  EncodedBy 0xfe00707f#32 0x00002033#32 (fun w => .slt (rdOf w) (rs1Of w) (rs2Of w)) ∧
  EncodedBy 0xfe00707f#32 0x00003033#32 (fun w => .sltu (rdOf w) (rs1Of w) (rs2Of w)) ∧
  EncodedBy 0xfe00707f#32 0x00001033#32 (fun w => .sll (rdOf w) (rs1Of w) (rs2Of w)) ∧
  EncodedBy 0xfe00707f#32 0x00005033#32 (fun w => .srl (rdOf w) (rs1Of w) (rs2Of w)) ∧
  EncodedBy 0xfe00707f#32 0x40005033#32 (fun w => .sra (rdOf w) (rs1Of w) (rs2Of w)) ∧
  ∀ (rd rs1 rs2 : RegIdx) (s : State),
    (∃ t, exec (.slt rd rs1 rs2) s = .next t ∧ Computes rd (if (s.x rs1).toInt < (s.x rs2).toInt then 1 else 0) s t) ∧
    (∃ t, exec (.sltu rd rs1 rs2) s = .next t ∧ Computes rd (if (s.x rs1).toNat < (s.x rs2).toNat then 1 else 0) s t) ∧
    (∃ t, exec (.sll rd rs1 rs2) s = .next t ∧ Computes rd (BitVec.ofNat 32 ((s.x rs1).toNat * 2 ^ ((s.x rs2).toNat % 32))) s t) ∧
    (∃ t, exec (.srl rd rs1 rs2) s = .next t ∧ Computes rd (BitVec.ofNat 32 ((s.x rs1).toNat / 2 ^ ((s.x rs2).toNat % 32))) s t) ∧
    (∃ t, exec (.sra rd rs1 rs2) s = .next t ∧ Computes rd (BitVec.ofInt 32 ((s.x rs1).toInt / 2 ^ ((s.x rs2).toNat % 32))) s t)

/-- R240 (pc), R241 to R244. The funct3 values of the decoding are the spec's G3 (log 17). -/
def Obligations.MultiplyLowAndHigh : Prop :=
  EncodedBy 0xfe00707f#32 0x02000033#32 (fun w => .mul (rdOf w) (rs1Of w) (rs2Of w)) ∧
  EncodedBy 0xfe00707f#32 0x02001033#32 (fun w => .mulh (rdOf w) (rs1Of w) (rs2Of w)) ∧
  EncodedBy 0xfe00707f#32 0x02002033#32 (fun w => .mulhsu (rdOf w) (rs1Of w) (rs2Of w)) ∧
  EncodedBy 0xfe00707f#32 0x02003033#32 (fun w => .mulhu (rdOf w) (rs1Of w) (rs2Of w)) ∧
  ∀ (rd rs1 rs2 : RegIdx) (s : State),
    (∃ t, exec (.mul rd rs1 rs2) s = .next t ∧ Computes rd (BitVec.ofInt 32 ((s.x rs1).toInt * (s.x rs2).toInt)) s t) ∧
    (∃ t, exec (.mulh rd rs1 rs2) s = .next t ∧ Computes rd (BitVec.ofInt 32 ((s.x rs1).toInt * (s.x rs2).toInt / 2 ^ 32)) s t) ∧
    (∃ t, exec (.mulhsu rd rs1 rs2) s = .next t ∧ Computes rd (BitVec.ofInt 32 ((s.x rs1).toInt * ((s.x rs2).toNat : Int) / 2 ^ 32)) s t) ∧
    (∃ t, exec (.mulhu rd rs1 rs2) s = .next t ∧ Computes rd (BitVec.ofNat 32 ((s.x rs1).toNat * (s.x rs2).toNat / 2 ^ 32)) s t)

/-- R240 (pc), R246, R248. The funct3 values of the decoding are the spec's G3 (log 17). -/
def Obligations.UnsignedDivideAndRemainder : Prop :=
  EncodedBy 0xfe00707f#32 0x02005033#32 (fun w => .divu (rdOf w) (rs1Of w) (rs2Of w)) ∧
  EncodedBy 0xfe00707f#32 0x02007033#32 (fun w => .remu (rdOf w) (rs1Of w) (rs2Of w)) ∧
  ∀ (rd rs1 rs2 : RegIdx) (s : State),
    (∃ t, exec (.divu rd rs1 rs2) s = .next t ∧ Computes rd (if s.x rs2 = 0 then 0xFFFFFFFF#32 else BitVec.ofNat 32 ((s.x rs1).toNat / (s.x rs2).toNat)) s t) ∧
    (∃ t, exec (.remu rd rs1 rs2) s = .next t ∧ Computes rd (if s.x rs2 = 0 then s.x rs1 else BitVec.ofNat 32 ((s.x rs1).toNat % (s.x rs2).toNat)) s t)

/-- R245, R247, S5: the zero case as the source defines it (the spec's D5). The funct3
values of the decoding are its G3 (log 17). -/
def Obligations.SignedDivideAndRemainderByZero : Prop :=
  EncodedBy 0xfe00707f#32 0x02004033#32 (fun w => .div (rdOf w) (rs1Of w) (rs2Of w)) ∧
  EncodedBy 0xfe00707f#32 0x02006033#32 (fun w => .rem (rdOf w) (rs1Of w) (rs2Of w)) ∧
  ∀ (rd rs1 rs2 : RegIdx) (s : State), s.x rs2 = 0 →
    (∃ t, exec (.div rd rs1 rs2) s = .next t ∧ Computes rd (0x7FFFFFFF#32) s t) ∧
    (∃ t, exec (.rem rd rs1 rs2) s = .next t ∧ Computes rd (s.x rs1) s t)

/-- R245, R247, R249: the rounding is the spec's D8 (log 20). -/
def Obligations.SignedDivisionLaw : Prop :=
  ∀ (rd rs1 rs2 : RegIdx) (s : State), s.x rs2 ≠ 0 →
    ¬ (s.x rs1 = 0x80000000#32 ∧ s.x rs2 = 0xFFFFFFFF#32) →
    ∃ q r : Int, (s.x rs1).toInt = (s.x rs2).toInt * q + r ∧ |r| < |(s.x rs2).toInt| ∧
      (0 ≤ (s.x rs1).toInt → 0 ≤ r) ∧ ((s.x rs1).toInt ≤ 0 → r ≤ 0) ∧
      -(2 ^ 31) ≤ q ∧ q < 2 ^ 31 ∧
      (∃ t, exec (.div rd rs1 rs2) s = .next t ∧ Computes rd (BitVec.ofInt 32 q) s t) ∧
      (∃ t, exec (.rem rd rs1 rs2) s = .next t ∧ Computes rd (BitVec.ofInt 32 r) s t)

/-- R250, R8, D7: the two settings are R8's, and the statement holds for every value (log 3). -/
def Obligations.SignedOverflowFollowsItsParameter : Prop :=
  ∀ (rd rs1 rs2 : RegIdx) (s : State), s.x rs1 = 0x80000000#32 → s.x rs2 = 0xFFFFFFFF#32 →
    (∀ v, s.params.divOverflow = .value v →
      ∃ t, exec (.div rd rs1 rs2) s = .next t ∧ Computes rd v s t) ∧
    (s.params.divOverflow = .refuse → exec (.div rd rs1 rs2) s = .refused .divOverflow) ∧
    (∀ v, s.params.remOverflow = .value v →
      ∃ t, exec (.rem rd rs1 rs2) s = .next t ∧ Computes rd v s t) ∧
    (s.params.remOverflow = .refuse → exec (.rem rd rs1 rs2) s = .refused .remOverflow)

/-- R262, R263 (the spec's D20, D21). That bits 24:7 are not examined is R110 under the spec's D11 (log 16); the register
numbers are D20 (log 17). The wait and the free word are the model's form (log 7, log 8); the last clause
holds for every word. -/
def Obligations.EcallReadsAByte : Prop :=
  EncodedBy 0xfe00007f#32 0x00000073#32 (fun _ => .ecall) ∧
  ∀ s : State, s.x 17 = 1 →
    (∀ b rest, s.hostInput = b :: rest →
      ∃ t, exec .ecall s = .next t ∧ ReadsByte (b.setWidth 32) s t ∧ t.hostInput = rest ∧
        t.freeCount = s.freeCount) ∧
    (s.hostInput = [] → s.hostInputEnded = false → exec .ecall s = .next s ∧
      ∀ b, ∃ t, exec .ecall (s.hostSupply b) = .next t ∧ ReadsByte (b.setWidth 32) s t ∧
        t.hostInput = [] ∧ t.freeCount = s.freeCount) ∧
    (s.hostInput = [] → s.hostInputEnded = true →
      ∃ v t, exec .ecall s = .next t ∧ ReadsByte v s t ∧ t.hostInput = [] ∧
        t.freeCount = s.freeCount + 1)

/-- R264, R262 (pc). That a7 is x17 and a0 is x10 is R260 under the spec's D20 (log 17); the event list is the model's form
(log 11). -/
def Obligations.EcallWritesTheLowByte : Prop :=
  ∀ s : State, s.x 17 = 2 →
    ∃ t, exec .ecall s = .next t ∧
      t.events = s.events ++ [.writeByte (BitVec.ofNat 8 ((s.x 10).toNat % 256))] ∧
      SameRegs s t ∧ t.pc = s.pc + 4 ∧ t.bubble = s.bubble ∧ SameMemory s t ∧ SameRun s t ∧
      t.hostInput = s.hostInput ∧ t.hostInputEnded = s.hostInputEnded ∧
      t.freeCount = s.freeCount

/-- R265: byte address, unsigned count and the fault past the ROM are the spec's D22, the register numbers its
D20 (log 17); the fault as a next state is the model's form (log 9). -/
def Obligations.EcallWritesPackedRomBytes : Prop :=
  ∀ s : State, s.x 17 = 4 →
    (((s.x 11).toNat = 0 ∨ (s.x 10).toNat / 4 + (s.x 11).toNat ≤ s.params.romWords) →
      ∃ t, exec .ecall s = .next t ∧
        t.events = s.events ++ (List.range (s.x 11).toNat).map (fun k =>
          .writeByte ((s.rom.wordAt ((s.x 10).toNat / 4 + k)).extractLsb' 12 8)) ∧
        t.status = s.status ∧ t.pc = s.pc + 4 ∧ EcallKeeps s t) ∧
    ((s.x 11).toNat ≠ 0 → s.params.romWords < (s.x 10).toNat / 4 + (s.x 11).toNat →
      ∃ t, exec .ecall s = .next t ∧
        t.events = s.events ++ (List.range (s.params.romWords - (s.x 10).toNat / 4)).map (fun k =>
          .writeByte ((s.rom.wordAt ((s.x 10).toNat / 4 + k)).extractLsb' 12 8)) ∧
        t.status = .faulted (.indexFault .rom (max ((s.x 10).toNat / 4) s.params.romWords)) ∧
        t.pc = s.pc ∧ EcallKeeps s t)

/-- R266 (the spec's D24, its register numbers D20, log 17). What pc holds after it cannot be observed (log 13). -/
def Obligations.EcallExits : Prop :=
  ∀ s : State, s.x 17 = 10 →
    ∃ t, exec .ecall s = .next t ∧ t.status = .exited (s.x 10) ∧
      t.events = s.events ++ [.exit (s.x 10)] ∧ EcallKeeps s t

/-- R267. That a7 is x17 is R260 under the spec's D20 (log 17), and that all 32 bits are compared its D32 (log 23). -/
def Obligations.EcallOtherServicesDoNothing : Prop :=
  ∀ s : State, s.x 17 ≠ 1 → s.x 17 ≠ 2 → s.x 17 ≠ 4 → s.x 17 ≠ 10 →
    ∃ t, exec .ecall s = .next t ∧ OnlyAdvances s t

/-- R270. That bits 24:7 are not examined, so that 0x00100073 is an ECALL, is R110 under the spec's D11 (log 16). -/
def Obligations.EbreakDoesNothing : Prop :=
  EncodedBy 0xfe00007f#32 0x02000073#32 (fun _ => .ebreak) ∧
  decodeWord 0x00100073#32 = .ok .ecall ∧
  ∀ s : State, ∃ t, exec .ebreak s = .next t ∧ OnlyAdvances s t
end

