-- ==== Sys2Proof/Laws/Decode.lean ====
section
/-! SUPPORT. The fields of a word known under a mask, the fields of an encoded word, and the masks as
fields: what the proofs about the decoder and the encoder cite. -/

namespace Sys2Proof

open BitVec

/-! ## Registers as bits -/

@[simp] theorem regOfBits_bitsOfReg (r : RegIdx) : regOfBits (bitsOfReg r) = r := rfl
@[simp] theorem bitsOfReg_regOfBits (b : BitVec 5) : bitsOfReg (regOfBits b) = b := rfl

/-! ## Fields of a word known under a mask (R104) -/

theorem extractLsb'_of_masked {w mask value : Word} (lo n : Nat) (h : w &&& mask = value)
    (hm : mask.extractLsb' lo n = BitVec.allOnes n) :
    w.extractLsb' lo n = value.extractLsb' lo n := by
  rw [← h, BitVec.extractLsb'_and, hm, BitVec.and_allOnes]

theorem opcodeOf_of_masked {w mask value : Word} (h : w &&& mask = value)
    (hm : mask.extractLsb' 0 7 = BitVec.allOnes 7) : opcodeOf w = opcodeOf value :=
  extractLsb'_of_masked 0 7 h hm

theorem funct3Of_of_masked {w mask value : Word} (h : w &&& mask = value)
    (hm : mask.extractLsb' 12 3 = BitVec.allOnes 3) : funct3Of w = funct3Of value :=
  extractLsb'_of_masked 12 3 h hm

theorem funct7Of_of_masked {w mask value : Word} (h : w &&& mask = value)
    (hm : mask.extractLsb' 25 7 = BitVec.allOnes 7) : funct7Of w = funct7Of value :=
  extractLsb'_of_masked 25 7 h hm

/-! ## The table's four masks as fields -/

theorem and_opcodeMask (w : Word) : w &&& 0x0000007f#32 = (opcodeOf w).setWidth 32 := by
  apply BitVec.eq_of_getLsbD_eq
  intro j hj
  simp only [opcodeOf]
  interval_cases j <;> simp

theorem and_funct3Mask (w : Word) :
    w &&& 0x0000707f#32 = ((funct3Of w).setWidth 32 <<< 12) ||| (opcodeOf w).setWidth 32 := by
  apply BitVec.eq_of_getLsbD_eq
  intro j hj
  simp only [opcodeOf, funct3Of]
  interval_cases j <;> simp

theorem and_funct7Mask (w : Word) :
    w &&& 0xfe00707f#32 = ((funct7Of w).setWidth 32 <<< 25) |||
      ((funct3Of w).setWidth 32 <<< 12) ||| (opcodeOf w).setWidth 32 := by
  apply BitVec.eq_of_getLsbD_eq
  intro j hj
  simp only [opcodeOf, funct3Of, funct7Of]
  interval_cases j <;> simp

theorem and_systemMask (w : Word) :
    w &&& 0xfe00007f#32 = ((funct7Of w).setWidth 32 <<< 25) ||| (opcodeOf w).setWidth 32 := by
  apply BitVec.eq_of_getLsbD_eq
  intro j hj
  simp only [opcodeOf, funct7Of]
  interval_cases j <;> simp

/-! ## Fields of an encoded word, R format -/

section
variable (f7 : BitVec 7) (rs2 rs1 : RegIdx) (f3 : BitVec 3) (rd : RegIdx) (op : BitVec 7)

@[simp] theorem opcodeOf_encodeR : opcodeOf (encodeR f7 rs2 rs1 f3 rd op) = op := by
  apply BitVec.eq_of_getLsbD_eq
  intro j hj
  simp only [opcodeOf, encodeR, getLsbD_extractLsb', getLsbD_append]
  interval_cases j <;> simp

@[simp] theorem funct3Of_encodeR : funct3Of (encodeR f7 rs2 rs1 f3 rd op) = f3 := by
  apply BitVec.eq_of_getLsbD_eq
  intro j hj
  simp only [funct3Of, encodeR, getLsbD_extractLsb', getLsbD_append]
  interval_cases j <;> simp

@[simp] theorem funct7Of_encodeR : funct7Of (encodeR f7 rs2 rs1 f3 rd op) = f7 := by
  apply BitVec.eq_of_getLsbD_eq
  intro j hj
  simp only [funct7Of, encodeR, getLsbD_extractLsb', getLsbD_append]
  interval_cases j <;> simp

@[simp] theorem rdOf_encodeR : rdOf (encodeR f7 rs2 rs1 f3 rd op) = rd := by
  have h : (encodeR f7 rs2 rs1 f3 rd op).extractLsb' 7 5 = bitsOfReg rd := by
    apply BitVec.eq_of_getLsbD_eq
    intro j hj
    simp only [encodeR, getLsbD_extractLsb', getLsbD_append]
    interval_cases j <;> simp
  rw [rdOf, h, regOfBits_bitsOfReg]

@[simp] theorem rs1Of_encodeR : rs1Of (encodeR f7 rs2 rs1 f3 rd op) = rs1 := by
  have h : (encodeR f7 rs2 rs1 f3 rd op).extractLsb' 15 5 = bitsOfReg rs1 := by
    apply BitVec.eq_of_getLsbD_eq
    intro j hj
    simp only [encodeR, getLsbD_extractLsb', getLsbD_append]
    interval_cases j <;> simp
  rw [rs1Of, h, regOfBits_bitsOfReg]

@[simp] theorem rs2Of_encodeR : rs2Of (encodeR f7 rs2 rs1 f3 rd op) = rs2 := by
  have h : (encodeR f7 rs2 rs1 f3 rd op).extractLsb' 20 5 = bitsOfReg rs2 := by
    apply BitVec.eq_of_getLsbD_eq
    intro j hj
    simp only [encodeR, getLsbD_extractLsb', getLsbD_append]
    interval_cases j <;> simp
  rw [rs2Of, h, regOfBits_bitsOfReg]

@[simp] theorem shamtOf_encodeR : shamtOf (encodeR f7 rs2 rs1 f3 rd op) = rs2 := by
  have h : (encodeR f7 rs2 rs1 f3 rd op).extractLsb' 20 5 = bitsOfReg rs2 := by
    apply BitVec.eq_of_getLsbD_eq
    intro j hj
    simp only [encodeR, getLsbD_extractLsb', getLsbD_append]
    interval_cases j <;> simp
  rw [shamtOf, h, regOfBits_bitsOfReg]

end

/-! ## Fields of an encoded word, I format -/

section
variable (imm : Word) (rs1 : RegIdx) (f3 : BitVec 3) (rd : RegIdx) (op : BitVec 7)

@[simp] theorem opcodeOf_encodeI : opcodeOf (encodeI imm rs1 f3 rd op) = op := by
  apply BitVec.eq_of_getLsbD_eq
  intro j hj
  simp only [opcodeOf, encodeI, getLsbD_extractLsb', getLsbD_append]
  interval_cases j <;> simp

@[simp] theorem funct3Of_encodeI : funct3Of (encodeI imm rs1 f3 rd op) = f3 := by
  apply BitVec.eq_of_getLsbD_eq
  intro j hj
  simp only [funct3Of, encodeI, getLsbD_extractLsb', getLsbD_append]
  interval_cases j <;> simp

@[simp] theorem rdOf_encodeI : rdOf (encodeI imm rs1 f3 rd op) = rd := by
  have h : (encodeI imm rs1 f3 rd op).extractLsb' 7 5 = bitsOfReg rd := by
    apply BitVec.eq_of_getLsbD_eq
    intro j hj
    simp only [encodeI, getLsbD_extractLsb', getLsbD_append]
    interval_cases j <;> simp
  rw [rdOf, h, regOfBits_bitsOfReg]

@[simp] theorem rs1Of_encodeI : rs1Of (encodeI imm rs1 f3 rd op) = rs1 := by
  have h : (encodeI imm rs1 f3 rd op).extractLsb' 15 5 = bitsOfReg rs1 := by
    apply BitVec.eq_of_getLsbD_eq
    intro j hj
    simp only [encodeI, getLsbD_extractLsb', getLsbD_append]
    interval_cases j <;> simp
  rw [rs1Of, h, regOfBits_bitsOfReg]

@[simp] theorem immI_encodeI : immI (encodeI imm rs1 f3 rd op) = (imm.setWidth 12).signExtend 32 := by
  unfold immI
  congr 1
  apply BitVec.eq_of_getLsbD_eq
  intro j hj
  simp only [encodeI, getLsbD_extractLsb', getLsbD_append, getLsbD_setWidth]
  interval_cases j <;> simp

end

/-! ## Fields of an encoded word, S format -/

section
variable (imm : Word) (rs2 rs1 : RegIdx) (f3 : BitVec 3) (op : BitVec 7)

@[simp] theorem opcodeOf_encodeS : opcodeOf (encodeS imm rs2 rs1 f3 op) = op := by
  apply BitVec.eq_of_getLsbD_eq
  intro j hj
  simp only [opcodeOf, encodeS, getLsbD_extractLsb', getLsbD_append]
  interval_cases j <;> simp

@[simp] theorem funct3Of_encodeS : funct3Of (encodeS imm rs2 rs1 f3 op) = f3 := by
  apply BitVec.eq_of_getLsbD_eq
  intro j hj
  simp only [funct3Of, encodeS, getLsbD_extractLsb', getLsbD_append]
  interval_cases j <;> simp

@[simp] theorem rs1Of_encodeS : rs1Of (encodeS imm rs2 rs1 f3 op) = rs1 := by
  have h : (encodeS imm rs2 rs1 f3 op).extractLsb' 15 5 = bitsOfReg rs1 := by
    apply BitVec.eq_of_getLsbD_eq
    intro j hj
    simp only [encodeS, getLsbD_extractLsb', getLsbD_append]
    interval_cases j <;> simp
  rw [rs1Of, h, regOfBits_bitsOfReg]

@[simp] theorem rs2Of_encodeS : rs2Of (encodeS imm rs2 rs1 f3 op) = rs2 := by
  have h : (encodeS imm rs2 rs1 f3 op).extractLsb' 20 5 = bitsOfReg rs2 := by
    apply BitVec.eq_of_getLsbD_eq
    intro j hj
    simp only [encodeS, getLsbD_extractLsb', getLsbD_append]
    interval_cases j <;> simp
  rw [rs2Of, h, regOfBits_bitsOfReg]

@[simp] theorem immS_encodeS : immS (encodeS imm rs2 rs1 f3 op) = (imm.setWidth 12).signExtend 32 := by
  unfold immS
  congr 1
  apply BitVec.eq_of_getLsbD_eq
  intro j hj
  simp only [encodeS, getLsbD_extractLsb', getLsbD_append, getLsbD_setWidth]
  interval_cases j <;> simp

end

/-! ## Fields of an encoded word, B format -/

section
variable (imm : Word) (rs2 rs1 : RegIdx) (f3 : BitVec 3) (op : BitVec 7)

@[simp] theorem opcodeOf_encodeB : opcodeOf (encodeB imm rs2 rs1 f3 op) = op := by
  apply BitVec.eq_of_getLsbD_eq
  intro j hj
  simp only [opcodeOf, encodeB, getLsbD_extractLsb', getLsbD_append]
  interval_cases j <;> simp

@[simp] theorem funct3Of_encodeB : funct3Of (encodeB imm rs2 rs1 f3 op) = f3 := by
  apply BitVec.eq_of_getLsbD_eq
  intro j hj
  simp only [funct3Of, encodeB, getLsbD_extractLsb', getLsbD_append]
  interval_cases j <;> simp

@[simp] theorem rs1Of_encodeB : rs1Of (encodeB imm rs2 rs1 f3 op) = rs1 := by
  have h : (encodeB imm rs2 rs1 f3 op).extractLsb' 15 5 = bitsOfReg rs1 := by
    apply BitVec.eq_of_getLsbD_eq
    intro j hj
    simp only [encodeB, getLsbD_extractLsb', getLsbD_append]
    interval_cases j <;> simp
  rw [rs1Of, h, regOfBits_bitsOfReg]

@[simp] theorem rs2Of_encodeB : rs2Of (encodeB imm rs2 rs1 f3 op) = rs2 := by
  have h : (encodeB imm rs2 rs1 f3 op).extractLsb' 20 5 = bitsOfReg rs2 := by
    apply BitVec.eq_of_getLsbD_eq
    intro j hj
    simp only [encodeB, getLsbD_extractLsb', getLsbD_append]
    interval_cases j <;> simp
  rw [rs2Of, h, regOfBits_bitsOfReg]

theorem immB_encodeB (h : imm.getLsbD 0 = false) :
    immB (encodeB imm rs2 rs1 f3 op) = (imm.setWidth 13).signExtend 32 := by
  unfold immB
  congr 1
  apply BitVec.eq_of_getLsbD_eq
  intro j hj
  simp only [encodeB, getLsbD_extractLsb', getLsbD_append, getLsbD_setWidth]
  interval_cases j <;> simp
  simpa using h

end

/-! ## Fields of an encoded word, U format -/

section
variable (imm : Word) (rd : RegIdx) (op : BitVec 7)

@[simp] theorem opcodeOf_encodeU : opcodeOf (encodeU imm rd op) = op := by
  apply BitVec.eq_of_getLsbD_eq
  intro j hj
  simp only [opcodeOf, encodeU, getLsbD_extractLsb', getLsbD_append]
  interval_cases j <;> simp

@[simp] theorem rdOf_encodeU : rdOf (encodeU imm rd op) = rd := by
  have h : (encodeU imm rd op).extractLsb' 7 5 = bitsOfReg rd := by
    apply BitVec.eq_of_getLsbD_eq
    intro j hj
    simp only [encodeU, getLsbD_extractLsb', getLsbD_append]
    interval_cases j <;> simp
  rw [rdOf, h, regOfBits_bitsOfReg]

theorem immU_encodeU (h : imm.setWidth 12 = 0) : immU (encodeU imm rd op) = imm := by
  have hlow : ∀ k, k < 12 → imm.getLsbD k = false := by
    intro k hk
    have := congrArg (fun v : BitVec 12 => v.getLsbD k) h
    simpa [hk] using this
  apply BitVec.eq_of_getLsbD_eq
  intro j hj
  simp only [immU, encodeU, getLsbD_extractLsb', getLsbD_append]
  by_cases hj12 : j < 12
  · simp [hj12, hlow j hj12]
  · have h1 : j - 12 < 20 := by omega
    have h2 : 12 + (j - 12) = j := by omega
    interval_cases j <;> simp_all

end

/-! ## Fields of an encoded word, J format -/

section
variable (imm : Word) (rd : RegIdx) (op : BitVec 7)

@[simp] theorem opcodeOf_encodeJ : opcodeOf (encodeJ imm rd op) = op := by
  apply BitVec.eq_of_getLsbD_eq
  intro j hj
  simp only [opcodeOf, encodeJ, getLsbD_extractLsb', getLsbD_append]
  interval_cases j <;> simp

@[simp] theorem rdOf_encodeJ : rdOf (encodeJ imm rd op) = rd := by
  have h : (encodeJ imm rd op).extractLsb' 7 5 = bitsOfReg rd := by
    apply BitVec.eq_of_getLsbD_eq
    intro j hj
    simp only [encodeJ, getLsbD_extractLsb', getLsbD_append]
    interval_cases j <;> simp
  rw [rdOf, h, regOfBits_bitsOfReg]

theorem immJ_encodeJ (h : imm.getLsbD 0 = false) :
    immJ (encodeJ imm rd op) = (imm.setWidth 21).signExtend 32 := by
  unfold immJ
  congr 1
  apply BitVec.eq_of_getLsbD_eq
  intro j hj
  simp only [encodeJ, getLsbD_extractLsb', getLsbD_append, getLsbD_setWidth]
  interval_cases j <;> simp
  simpa using h

end

/-! ## Fields of an encoded word, System format -/

section
variable (f7 : BitVec 7)

@[simp] theorem opcodeOf_encodeSystem : opcodeOf (encodeSystem f7) = 0b1110011#7 := by
  apply BitVec.eq_of_getLsbD_eq
  intro j hj
  simp only [opcodeOf, encodeSystem, getLsbD_extractLsb', getLsbD_append]
  interval_cases j <;> simp

@[simp] theorem funct7Of_encodeSystem : funct7Of (encodeSystem f7) = f7 := by
  apply BitVec.eq_of_getLsbD_eq
  intro j hj
  simp only [funct7Of, encodeSystem, getLsbD_extractLsb', getLsbD_append]
  interval_cases j <;> simp

end

end Sys2Proof
end

