-- ==== Sys2Proof/Laws/Memory.lean ====
section
/-! SUPPORT. The laws of memory: a read after a write, the bytes a write leaves alone, and the
canonical form kept by every operation. -/

namespace Sys2Proof.Machine

/-! ## The canonical form -/

theorem wfFrom_nil (lo : Nat) : Memory.wfFrom lo [] = true := rfl

theorem wfFrom_cons {lo a : Nat} {b : Byte} {m : Memory} :
    Memory.wfFrom lo ((a, b) :: m) = true ↔ lo ≤ a ∧ b ≠ 0 ∧ Memory.wfFrom (a + 1) m = true := by
  simp [Memory.wfFrom, and_assoc]

theorem wfFrom_mono {lo lo' : Nat} {m : Memory} (h : lo' ≤ lo) (hm : Memory.wfFrom lo m = true) :
    Memory.wfFrom lo' m = true := by
  cases m with
  | nil => rfl
  | cons c m =>
    obtain ⟨a, b⟩ := c
    rw [wfFrom_cons] at hm ⊢
    exact ⟨h.trans hm.1, hm.2⟩

theorem wfFrom_consByte {lo a : Nat} {b : Byte} {m : Memory} (h : lo ≤ a)
    (hm : Memory.wfFrom (a + 1) m = true) : Memory.wfFrom lo (Memory.consByte a b m) = true := by
  unfold Memory.consByte
  split
  · exact wfFrom_mono (by omega) hm
  · exact wfFrom_cons.2 ⟨h, ‹_›, hm⟩

theorem wfFrom_setByte {lo a : Nat} {b : Byte} {m : Memory} (h : lo ≤ a)
    (hm : Memory.wfFrom lo m = true) : Memory.wfFrom lo (m.setByte a b) = true := by
  induction m generalizing lo with
  | nil => exact wfFrom_consByte h rfl
  | cons c m ih =>
    obtain ⟨a', b'⟩ := c
    rw [wfFrom_cons] at hm
    simp only [Memory.setByte]
    split
    · exact wfFrom_consByte h (wfFrom_cons.2 ⟨by omega, hm.2⟩)
    · split
      · subst a'; exact wfFrom_consByte h hm.2.2
      · exact wfFrom_cons.2 ⟨hm.1, hm.2.1, ih (by omega) hm.2.2⟩

/-- A byte write keeps the canonical form. -/
theorem wf_setByte {m : Memory} (a : Nat) (b : Byte) (hm : m.wf = true) :
    (m.setByte a b).wf = true := wfFrom_setByte (Nat.zero_le a) hm

/-- A word write keeps the canonical form. -/
theorem wf_setWord {m : Memory} (i : Nat) (w : Word) (hm : m.wf = true) :
    (m.setWord i w).wf = true := wf_setByte _ _ (wf_setByte _ _ (wf_setByte _ _ (wf_setByte _ _ hm)))

/-- Loading an image keeps the canonical form. -/
theorem wf_setWords {m : Memory} (i : Nat) (ws : List Word) (hm : m.wf = true) :
    (m.setWords i ws).wf = true := by
  induction ws generalizing m i with
  | nil => exact hm
  | cons w ws ih => exact ih (i + 1) (wf_setWord i w hm)

/-- A staged RAM write keeps the canonical form. -/
theorem wf_commitRam {m : Memory} (write : Option (Nat × Word)) (hm : m.wf = true) :
    (commitRam write m).wf = true := by
  rcases write with _ | ⟨i, v⟩
  · exact hm
  · exact wf_setWord i v hm

theorem reset_ram_wf : State.reset.ram.wf = true := rfl
theorem reset_rom_wf : State.reset.rom.wf = true := rfl

/-! ## Addresses below a size -/

theorem below_setByte {n a : Nat} {b : Byte} {m : Memory} (h : a < n) (hm : m.below n = true) :
    (m.setByte a b).below n = true := by
  have hc : ∀ m' : Memory, m'.below n = true → (Memory.consByte a b m').below n = true := by
    intro m' hm'
    unfold Memory.consByte
    split
    · exact hm'
    · simp only [Memory.below, List.all_cons, Bool.and_eq_true, decide_eq_true_eq]
      exact ⟨h, hm'⟩
  induction m with
  | nil => exact hc _ hm
  | cons c m ih =>
    obtain ⟨a', b'⟩ := c
    have hm' := hm
    simp only [Memory.below, List.all_cons, Bool.and_eq_true, decide_eq_true_eq] at hm'
    simp only [Memory.setByte]
    split
    · exact hc _ hm
    · split
      · exact hc _ hm'.2
      · simp only [Memory.below, List.all_cons, Bool.and_eq_true, decide_eq_true_eq]
        exact ⟨hm'.1, ih hm'.2⟩

/-- A write of a word inside the array lists nothing outside it. -/
theorem below_setWord {n i : Nat} {w : Word} {m : Memory} (h : i < n)
    (hm : m.below (4 * n) = true) : (m.setWord i w).below (4 * n) = true :=
  below_setByte (by omega) (below_setByte (by omega) (below_setByte (by omega)
    (below_setByte (by omega) hm)))

/-- Loading words that end inside the array lists nothing outside it. -/
theorem below_setWords {n i : Nat} {ws : List Word} {m : Memory} (h : i + ws.length ≤ n)
    (hm : m.below (4 * n) = true) : (m.setWords i ws).below (4 * n) = true := by
  induction ws generalizing m i with
  | nil => exact hm
  | cons w ws ih =>
    rw [List.length_cons] at h
    exact ih (by omega) (below_setWord (by omega) hm)

theorem below_mono {n n' : Nat} {m : Memory} (h : n ≤ n') (hm : m.below n = true) :
    m.below n' = true := by
  simp only [Memory.below, List.all_eq_true, decide_eq_true_eq] at hm ⊢
  exact fun c hc => (hm c hc).trans_le h

/-! ## Read after write -/

theorem byteAt_eq_zero {lo a : Nat} {m : Memory} (hm : Memory.wfFrom lo m = true) (h : a < lo) :
    m.byteAt a = 0 := by
  induction m generalizing lo with
  | nil => rfl
  | cons c m ih =>
    obtain ⟨a', b'⟩ := c
    rw [wfFrom_cons] at hm
    simp only [Memory.byteAt]
    rw [if_neg (by omega)]
    exact ih hm.2.2 (by omega)

theorem byteAt_consByte_of_ne {a a' : Nat} (b : Byte) (m : Memory) (h : a ≠ a') :
    (Memory.consByte a b m).byteAt a' = m.byteAt a' := by
  unfold Memory.consByte
  split
  · rfl
  · simp [Memory.byteAt, h]

theorem byteAt_consByte_self {a : Nat} {b : Byte} {m : Memory}
    (hm : Memory.wfFrom (a + 1) m = true) : (Memory.consByte a b m).byteAt a = b := by
  unfold Memory.consByte
  split
  · rename_i h; rw [h]; exact byteAt_eq_zero hm (Nat.lt_succ_self a)
  · simp [Memory.byteAt]

/-- A byte write leaves every other byte alone. -/
theorem byteAt_setByte_of_ne {a a' : Nat} (b : Byte) (m : Memory) (h : a ≠ a') :
    (m.setByte a b).byteAt a' = m.byteAt a' := by
  induction m with
  | nil => exact byteAt_consByte_of_ne b [] h
  | cons c m ih =>
    obtain ⟨a'', b''⟩ := c
    simp only [Memory.setByte]
    split
    · exact byteAt_consByte_of_ne b _ h
    · split
      · subst a''; rw [byteAt_consByte_of_ne b _ h]; simp [Memory.byteAt, h]
      · simp only [Memory.byteAt, ih]

theorem byteAt_setByte_self' {lo a : Nat} (b : Byte) {m : Memory} (h : lo ≤ a)
    (hm : Memory.wfFrom lo m = true) : (m.setByte a b).byteAt a = b := by
  induction m generalizing lo with
  | nil => exact byteAt_consByte_self (m := []) rfl
  | cons c m ih =>
    obtain ⟨a', b'⟩ := c
    rw [wfFrom_cons] at hm
    simp only [Memory.setByte]
    split
    · exact byteAt_consByte_self (wfFrom_cons.2 ⟨by omega, hm.2⟩)
    · split
      · subst a'; exact byteAt_consByte_self hm.2.2
      · simp only [Memory.byteAt]
        rw [if_neg (by omega)]
        exact ih (by omega) hm.2.2

/-- A read after a byte write answers the byte written. -/
theorem byteAt_setByte_self {m : Memory} (a : Nat) (b : Byte) (hm : m.wf = true) :
    (m.setByte a b).byteAt a = b := byteAt_setByte_self' b (Nat.zero_le a) hm

/-- A word write leaves every byte outside the word alone. -/
theorem byteAt_setWord_of_ne {a i : Nat} (w : Word) (m : Memory) (h : a / 4 ≠ i) :
    (m.setWord i w).byteAt a = m.byteAt a := by
  simp only [Memory.setWord]
  rw [byteAt_setByte_of_ne _ _ (by omega), byteAt_setByte_of_ne _ _ (by omega),
    byteAt_setByte_of_ne _ _ (by omega), byteAt_setByte_of_ne _ _ (by omega)]

/-- The bytes of a written word. -/
theorem byteAt_setWord_self {m : Memory} (i : Nat) (w : Word) (hm : m.wf = true) :
    (m.setWord i w).byteAt (4 * i) = byteOfWord w 0 ∧
    (m.setWord i w).byteAt (4 * i + 1) = byteOfWord w 1 ∧
    (m.setWord i w).byteAt (4 * i + 2) = byteOfWord w 2 ∧
    (m.setWord i w).byteAt (4 * i + 3) = byteOfWord w 3 := by
  have h0 := wf_setByte (4 * i) (byteOfWord w 0) hm
  have h1 := wf_setByte (4 * i + 1) (byteOfWord w 1) h0
  have h2 := wf_setByte (4 * i + 2) (byteOfWord w 2) h1
  simp only [Memory.setWord]
  refine ⟨?_, ?_, ?_, byteAt_setByte_self _ _ h2⟩
  · rw [byteAt_setByte_of_ne _ _ (by omega), byteAt_setByte_of_ne _ _ (by omega),
      byteAt_setByte_of_ne _ _ (by omega), byteAt_setByte_self _ _ hm]
  · rw [byteAt_setByte_of_ne _ _ (by omega), byteAt_setByte_of_ne _ _ (by omega),
      byteAt_setByte_self _ _ h0]
  · rw [byteAt_setByte_of_ne _ _ (by omega), byteAt_setByte_self _ _ h1]

/-- The four bytes of a word, put together again. -/
theorem wordOfBytes_byteOfWord (w : Word) :
    wordOfBytes (byteOfWord w 0) (byteOfWord w 1) (byteOfWord w 2) (byteOfWord w 3) = w := by
  apply BitVec.eq_of_getLsbD_eq
  intro j hj
  simp only [wordOfBytes, byteOfWord, BitVec.getLsbD_append, BitVec.getLsbD_extractLsb']
  split
  · simp [*]
  · split
    · rename_i h1 h2
      have : 8 * 1 + (j - 8) = j := by omega
      simp [h2, this]
    · split
      · rename_i h1 h2 h3
        have : 8 * 2 + (j - 8 - 8) = j := by omega
        simp [h3, this]
      · rename_i h1 h2 h3
        have h : 8 * 3 + (j - 8 - 8 - 8) = j := by omega
        have h4 : j - 8 - 8 - 8 < 8 := by omega
        simp [h4, h]

/-- A read after a word write answers the word written. -/
theorem wordAt_setWord_self {m : Memory} (i : Nat) (w : Word) (hm : m.wf = true) :
    (m.setWord i w).wordAt i = w := by
  obtain ⟨h0, h1, h2, h3⟩ := byteAt_setWord_self i w hm
  rw [Memory.wordAt, h0, h1, h2, h3, wordOfBytes_byteOfWord]

/-- A word write leaves every other word alone. -/
theorem wordAt_setWord_of_ne {i j : Nat} (w : Word) (m : Memory) (h : j ≠ i) :
    (m.setWord i w).wordAt j = m.wordAt j := by
  simp only [Memory.wordAt]
  rw [byteAt_setWord_of_ne _ _ (by omega), byteAt_setWord_of_ne _ _ (by omega),
    byteAt_setWord_of_ne _ _ (by omega), byteAt_setWord_of_ne _ _ (by omega)]

/-- A word index is the byte address divided by 4. -/
theorem wordIndex_eq (addr : Word) : wordIndex addr = addr.toNat / 4 := by
  simp [wordIndex, Nat.shiftRight_eq_div_pow]

end Sys2Proof.Machine
end

