-- ==== Sys2Proof/Laws/State.lean ====
section
/-! SUPPORT. Each update of the state, field by field, so that no later proof unfolds a record
update. -/

namespace Sys2Proof.Machine

/-! ## commit -/

section
variable (e : Effects) (s : State)

@[simp] theorem commit_pc :
    (commit e s).pc = pcNext false e.pcLoad.isSome true (e.pcLoad.getD 0) s.pc := rfl
@[simp] theorem commit_regs : (commit e s).regs = commitRegs e.rdWrite s.regs := rfl
@[simp] theorem commit_ram : (commit e s).ram = commitRam e.ramWrite s.ram := rfl
@[simp] theorem commit_rom : (commit e s).rom = s.rom := rfl
@[simp] theorem commit_bubble :
    (commit e s).bubble = if e.redirect then Config.bubbleTicks else s.bubble := rfl
@[simp] theorem commit_status : (commit e s).status = s.status := rfl
@[simp] theorem commit_params : (commit e s).params = s.params := rfl
@[simp] theorem commit_hostInput : (commit e s).hostInput = s.hostInput := rfl
@[simp] theorem commit_hostInputEnded : (commit e s).hostInputEnded = s.hostInputEnded := rfl
@[simp] theorem commit_events : (commit e s).events = s.events ++ e.calls := rfl
@[simp] theorem commit_freeCount : (commit e s).freeCount = s.freeCount + e.freeDrawn := rfl

end

@[simp] theorem commitRegs_none (regs : Vector Word 31) : commitRegs none regs = regs := rfl
@[simp] theorem commitRegs_some (rd : RegIdx) (v : Word) (regs : Vector Word 31) :
    commitRegs (some (rd, v)) regs = writeReg regs rd v := rfl
@[simp] theorem commitRam_none (ram : Memory) : commitRam none ram = ram := rfl
@[simp] theorem commitRam_some (i : Nat) (v : Word) (ram : Memory) :
    commitRam (some (i, v)) ram = ram.setWord i v := rfl

/-! ## The program counter's input selection -/

@[simp] theorem pcNext_load (increment : Bool) (t current : Word) :
    pcNext false true increment t current = t := rfl
@[simp] theorem pcNext_increment (t current : Word) :
    pcNext false false true t current = current + 4 := rfl
@[simp] theorem pcNext_hold (t current : Word) : pcNext false false false t current = current := rfl
@[simp] theorem pcNext_reset (load increment : Bool) (t current : Word) :
    pcNext true load increment t current = 0 := rfl

/-! ## bubbleTick -/

section
variable (s : State)

@[simp] theorem bubbleTick_pc : (bubbleTick s).pc = s.pc := rfl
@[simp] theorem bubbleTick_regs : (bubbleTick s).regs = s.regs := rfl
@[simp] theorem bubbleTick_ram : (bubbleTick s).ram = s.ram := rfl
@[simp] theorem bubbleTick_rom : (bubbleTick s).rom = s.rom := rfl
@[simp] theorem bubbleTick_bubble : (bubbleTick s).bubble = s.bubble - 1 := rfl
@[simp] theorem bubbleTick_status : (bubbleTick s).status = s.status := rfl
@[simp] theorem bubbleTick_params : (bubbleTick s).params = s.params := rfl
@[simp] theorem bubbleTick_hostInput : (bubbleTick s).hostInput = s.hostInput := rfl
@[simp] theorem bubbleTick_hostInputEnded : (bubbleTick s).hostInputEnded = s.hostInputEnded := rfl
@[simp] theorem bubbleTick_events : (bubbleTick s).events = s.events := rfl
@[simp] theorem bubbleTick_freeCount : (bubbleTick s).freeCount = s.freeCount := rfl

end

/-! ## The world outside -/

section
variable (b : Byte) (image : List Word) (s : State)

@[simp] theorem hostSupply_hostInput : (s.hostSupply b).hostInput = s.hostInput ++ [b] := rfl
@[simp] theorem hostSupply_events : (s.hostSupply b).events = s.events := rfl
@[simp] theorem hostSupply_regs : (s.hostSupply b).regs = s.regs := rfl
@[simp] theorem hostSupply_pc : (s.hostSupply b).pc = s.pc := rfl
@[simp] theorem hostEndInput_hostInput : s.hostEndInput.hostInput = s.hostInput := rfl
@[simp] theorem hostEndInput_hostInputEnded : s.hostEndInput.hostInputEnded = true := rfl
@[simp] theorem loadImage_rom : (s.loadImage image).rom = Memory.setWords [] 0 image := rfl
@[simp] theorem loadImage_ram : (s.loadImage image).ram = s.ram := rfl
@[simp] theorem loadImage_params : (s.loadImage image).params = s.params := rfl

end

/-- With R8's parameters at the reset choice and no image, `boot` is `reset`. -/
theorem boot_resetParams_nil : State.boot Config.resetParams [] = State.reset := rfl

/-! ## Registers -/

@[simp] theorem x_commit (e : Effects) (s : State) (r : RegIdx) :
    (commit e s).x r = readReg (commitRegs e.rdWrite s.regs) r := rfl

theorem x_def (s : State) (r : RegIdx) : s.x r = readReg s.regs r := rfl

/-- A read of `x0` answers 0, whatever the registers hold. -/
@[simp] theorem readReg_zero (regs : Vector Word 31) : readReg regs 0 = 0 := rfl

@[simp] theorem x_zero (s : State) : s.x 0 = 0 := rfl

/-- A write to `x0` is discarded. -/
@[simp] theorem writeReg_zero (regs : Vector Word 31) (v : Word) : writeReg regs 0 v = regs := rfl

/-- A written register reads as the value written, `x0` as 0. -/
theorem readReg_writeReg_self (regs : Vector Word 31) (r : RegIdx) (v : Word) :
    readReg (writeReg regs r v) r = if r = 0 then 0 else v := by
  rcases r with ⟨_ | k, h⟩
  · rfl
  · simp [readReg, writeReg, Fin.ext_iff]

/-- A write leaves every other register alone. -/
theorem readReg_writeReg_of_ne (regs : Vector Word 31) {r r' : RegIdx} (v : Word) (hne : r' ≠ r) :
    readReg (writeReg regs r v) r' = readReg regs r' := by
  rcases r with ⟨_ | k, h⟩
  · rfl
  · rcases r' with ⟨_ | k', h'⟩
    · rfl
    · have hk : k ≠ k' := fun hk => hne (by subst hk; rfl)
      simp [readReg, writeReg, hk]

end Sys2Proof.Machine
end

