-- ==== Sys2Proof/Laws/Ops.lean ====
section
/-! SUPPORT. One lemma per shared operation: everything it can answer. -/

namespace Sys2Proof.Machine

/-! ## Alignment -/

theorem aligned_iff (t : Word) : aligned t = true ↔ t.toNat % 4 = 0 := by
  simp only [aligned, beq_iff_eq, ← BitVec.toNat_inj, BitVec.extractLsb'_toNat]
  simp

theorem aligned_add_four {t : Word} (h : aligned t = true) : aligned (t + 4) = true := by
  rw [aligned_iff] at h ⊢
  simp only [BitVec.toNat_add, BitVec.reduceToNat]
  omega

/-! ## Reads and writes -/

theorem romWord_cases (s : State) (i : Nat) :
    (i < s.params.romWords ∧ romWord s i = .ok (s.rom.wordAt i)) ∨
    (s.params.romWords ≤ i ∧ romWord s i = .error (.indexFault .rom i)) := by
  by_cases h : i < s.params.romWords
  · exact .inl ⟨h, by simp [romWord, h]⟩
  · exact .inr ⟨by omega, by simp [romWord, h]⟩

theorem memRead_cases (s : State) (addr : Word) :
    (wordIndex addr < s.params.ramWords ∧ memRead s addr = .ok (s.ram.wordAt (wordIndex addr))) ∨
    (s.params.ramWords ≤ wordIndex addr ∧
      memRead s addr = .error (.indexFault .ram (wordIndex addr))) := by
  by_cases h : wordIndex addr < s.params.ramWords
  · exact .inl ⟨h, by simp [memRead, h]⟩
  · exact .inr ⟨by omega, by simp [memRead, h]⟩

theorem memWrite_cases (s : State) (addr v : Word) :
    (Config.videoBase ≤ addr ∧
      memWrite s addr v = .ok { calls := [.video (addr - Config.videoBase) v] }) ∨
    (addr < Config.videoBase ∧ wordIndex addr < s.params.ramWords ∧
      memWrite s addr v = .ok { ramWrite := some (wordIndex addr, v) }) ∨
    (addr < Config.videoBase ∧ s.params.ramWords ≤ wordIndex addr ∧
      memWrite s addr v = .error (.indexFault .ram (wordIndex addr))) := by
  by_cases hv : Config.videoBase ≤ addr
  · exact .inl ⟨hv, by simp [memWrite, hv]⟩
  · have hlt : addr < Config.videoBase := BitVec.not_le.1 hv
    by_cases h : wordIndex addr < s.params.ramWords
    · exact .inr (.inl ⟨hlt, h, by simp [memWrite, hv, h]⟩)
    · exact .inr (.inr ⟨hlt, by omega, by simp [memWrite, hv, h]⟩)

/-! ## Ends of an instruction -/

theorem writeBack_eq (rd : RegIdx) (v : Word) (s : State) :
    writeBack rd v s = .next (commit { rdWrite := some (rd, v) } s) := rfl

theorem raiseFault_eq (f : FaultRecord) (s : State) :
    raiseFault f s = .next { s with status := .faulted f } := rfl

theorem transfer_of_aligned {t : Word} (link : Option (RegIdx × Word)) (s : State)
    (h : aligned t = true) :
    transfer t link s = .next (commit { rdWrite := link, pcLoad := some t, redirect := true } s) := by
  simp [transfer, h]

theorem transfer_of_not_aligned {t : Word} (link : Option (RegIdx × Word)) (s : State)
    (h : aligned t = false) : transfer t link s = raiseFault (.alignmentFault t) s := by
  simp [transfer, h]

theorem branch_of_not_aligned (cond : Word → Word → Bool) (rs1 rs2 : RegIdx) {imm : Word}
    {s : State} (h : aligned (pcRelative imm s) = false) :
    branch cond rs1 rs2 imm s = raiseFault (.alignmentFault (pcRelative imm s)) s := by
  simp [branch, h]

theorem branch_taken {cond : Word → Word → Bool} {rs1 rs2 : RegIdx} {imm : Word} {s : State}
    (h : aligned (pcRelative imm s) = true) (hc : cond (s.x rs1) (s.x rs2) = true) :
    branch cond rs1 rs2 imm s =
      .next (commit { pcLoad := some (pcRelative imm s), redirect := true } s) := by
  simp [branch, h, hc, transfer]

theorem branch_untaken {cond : Word → Word → Bool} {rs1 rs2 : RegIdx} {imm : Word} {s : State}
    (h : aligned (pcRelative imm s) = true) (hc : cond (s.x rs1) (s.x rs2) = false) :
    branch cond rs1 rs2 imm s = .next (commit { pcLoad := some (s.pc + 4) } s) := by
  simp [branch, h, hc]

theorem load_cases (rd rs1 : RegIdx) (imm : Word) (s : State) :
    (wordIndex (s.x rs1 + imm) < s.params.ramWords ∧
      load rd rs1 imm s = writeBack rd (s.ram.wordAt (wordIndex (s.x rs1 + imm))) s) ∨
    (s.params.ramWords ≤ wordIndex (s.x rs1 + imm) ∧
      load rd rs1 imm s = raiseFault (.indexFault .ram (wordIndex (s.x rs1 + imm))) s) := by
  rcases memRead_cases s (s.x rs1 + imm) with ⟨h, e⟩ | ⟨h, e⟩
  · exact .inl ⟨h, by simp [load, effectiveAddress, e]⟩
  · exact .inr ⟨h, by simp [load, effectiveAddress, e]⟩

theorem store_cases (rs1 rs2 : RegIdx) (imm : Word) (s : State) :
    (Config.videoBase ≤ s.x rs1 + imm ∧
      store rs1 rs2 imm s = .next (commit (clobberRd imm s
        { calls := [.video (s.x rs1 + imm - Config.videoBase) (s.x rs2)] }) s)) ∨
    (s.x rs1 + imm < Config.videoBase ∧ wordIndex (s.x rs1 + imm) < s.params.ramWords ∧
      store rs1 rs2 imm s = .next (commit (clobberRd imm s
        { ramWrite := some (wordIndex (s.x rs1 + imm), s.x rs2) }) s)) ∨
    (s.x rs1 + imm < Config.videoBase ∧ s.params.ramWords ≤ wordIndex (s.x rs1 + imm) ∧
      store rs1 rs2 imm s = raiseFault (.indexFault .ram (wordIndex (s.x rs1 + imm))) s) := by
  rcases memWrite_cases s (s.x rs1 + imm) (s.x rs2) with ⟨h, e⟩ | ⟨h, h', e⟩ | ⟨h, h', e⟩
  · exact .inl ⟨h, by simp [store, effectiveAddress, e]⟩
  · exact .inr (.inl ⟨h, h', by simp [store, effectiveAddress, e]⟩)
  · exact .inr (.inr ⟨h, h', by simp [store, effectiveAddress, e]⟩)

/-! ## The effect of a store on the register its bits 11:7 name -/

section
variable (imm : Word) (s : State) (e : Effects)

@[simp] theorem clobberRd_ramWrite : (clobberRd imm s e).ramWrite = e.ramWrite := by
  unfold clobberRd; split <;> rfl
@[simp] theorem clobberRd_pcLoad : (clobberRd imm s e).pcLoad = e.pcLoad := by
  unfold clobberRd; split <;> rfl
@[simp] theorem clobberRd_redirect : (clobberRd imm s e).redirect = e.redirect := by
  unfold clobberRd; split <;> rfl
@[simp] theorem clobberRd_calls : (clobberRd imm s e).calls = e.calls := by
  unfold clobberRd; split <;> rfl

theorem clobberRd_of_false (h : s.params.storeClobbersRd = false) : clobberRd imm s e = e := by
  simp [clobberRd, h]

end

/-! ## Conditions -/

@[simp] theorem condEq_iff (a b : Word) : condEq a b = true ↔ a = b := by simp [condEq]
@[simp] theorem condNe_iff (a b : Word) : condNe a b = true ↔ a ≠ b := by simp [condNe, condEq]
@[simp] theorem condLt_iff (a b : Word) : condLt a b = true ↔ a.toInt < b.toInt := by simp [condLt]
@[simp] theorem condGe_iff (a b : Word) : condGe a b = true ↔ b.toInt ≤ a.toInt := by simp [condGe]
@[simp] theorem condLtu_iff (a b : Word) : condLtu a b = true ↔ a.toNat < b.toNat := by
  simp [condLtu]
@[simp] theorem condGeu_iff (a b : Word) : condGeu a b = true ↔ b.toNat ≤ a.toNat := by
  simp [condGeu]

end Sys2Proof.Machine
end

