-- ==== Sys2Proof/Laws/Exec.lean ====
section
/-! SUPPORT. What an instruction and a step can do, said once: every next state of `exec` is the
commit of effects of a known shape, a fault taken, or one of ECALL's own ends. -/

namespace Sys2Proof.Machine

/-- What the effects of an instruction other than ECALL are bound to. -/
structure Effects.Sound (i : Instr) (s : State) (e : Effects) : Prop where
  /-- A RAM write stays inside the array. -/
  ram : ∀ idx v, e.ramWrite = some (idx, v) → idx < s.params.ramWords
  /-- Only a control transfer loads `pc`, with an aligned target or `pc + 4`. -/
  pc : ∀ t, e.pcLoad = some t → loadsPc i = true ∧ (aligned t = true ∨ t = s.pc + 4)
  /-- The bubble starts exactly when the instruction redirects. -/
  redirect : e.redirect = true ↔ Redirecting i s
  /-- Only a store writes RAM or calls the video collaborator, and it calls nothing else. -/
  store : (e.ramWrite ≠ none ∨ e.calls ≠ []) → isStore i = true
  calls : ∀ c ∈ e.calls, c.isVideo = true

/-- Every end of an instruction other than ECALL. -/
theorem exec_next_cases {i : Instr} {s t : State} (hi : i ≠ .ecall) (h : exec i s = .next t) :
    (∃ e, Effects.Sound i s e ∧ t = commit e s) ∨
    ∃ f, t = { s with status := .faulted f } := by
  have hwb : ∀ rd v, ¬ Redirecting i s → writeBack rd v s = .next t →
      ∃ e, Effects.Sound i s e ∧ t = commit e s := by
    intro rd v hr hw
    rw [writeBack_eq] at hw
    cases hw
    exact ⟨_, ⟨by simp, by simp, by simp [hr], by simp, by simp⟩, rfl⟩
  have htr : ∀ tgt link, loadsPc i = true → Redirecting i s → transfer tgt link s = .next t →
      (∃ e, Effects.Sound i s e ∧ t = commit e s) ∨ ∃ f, t = { s with status := .faulted f } := by
    intro tgt link hl hr hw
    cases ha : aligned tgt with
    | true =>
      rw [transfer_of_aligned link s ha] at hw
      cases hw
      exact .inl ⟨_, ⟨by simp, by rintro _ ⟨⟩; exact ⟨hl, .inl ha⟩, by simp [hr], by simp, by simp⟩,
        rfl⟩
    | false =>
      rw [transfer_of_not_aligned link s ha] at hw
      cases hw
      exact .inr ⟨_, rfl⟩
  have hbr : ∀ cond rs1 rs2 imm, loadsPc i = true →
      (Redirecting i s ↔ cond (s.x rs1) (s.x rs2) = true) → branch cond rs1 rs2 imm s = .next t →
      (∃ e, Effects.Sound i s e ∧ t = commit e s) ∨ ∃ f, t = { s with status := .faulted f } := by
    intro cond rs1 rs2 imm hl hr hw
    cases ha : aligned (pcRelative imm s) with
    | true =>
      cases hc : cond (s.x rs1) (s.x rs2) with
      | true =>
        rw [branch_taken ha hc] at hw
        cases hw
        exact .inl ⟨_, ⟨by simp, by rintro _ ⟨⟩; exact ⟨hl, .inl ha⟩, by simp [hr, hc], by simp,
          by simp⟩, rfl⟩
      | false =>
        rw [branch_untaken ha hc] at hw
        cases hw
        exact .inl ⟨_, ⟨by simp, by rintro _ ⟨⟩; exact ⟨hl, .inr rfl⟩, by simp [hr, hc], by simp,
          by simp⟩, rfl⟩
    | false =>
      rw [branch_of_not_aligned cond rs1 rs2 ha] at hw
      cases hw
      exact .inr ⟨_, rfl⟩
  have hld : ∀ rd rs1 imm, ¬ Redirecting i s → load rd rs1 imm s = .next t →
      (∃ e, Effects.Sound i s e ∧ t = commit e s) ∨ ∃ f, t = { s with status := .faulted f } := by
    intro rd rs1 imm hr hw
    rcases load_cases rd rs1 imm s with ⟨_, e⟩ | ⟨_, e⟩
    · exact .inl (hwb _ _ hr (e ▸ hw))
    · rw [e] at hw; cases hw; exact .inr ⟨_, rfl⟩
  have hst : ∀ rs1 rs2 imm, isStore i = true → ¬ Redirecting i s → store rs1 rs2 imm s = .next t →
      (∃ e, Effects.Sound i s e ∧ t = commit e s) ∨ ∃ f, t = { s with status := .faulted f } := by
    intro rs1 rs2 imm his hr hw
    rcases store_cases rs1 rs2 imm s with ⟨_, e⟩ | ⟨_, hidx, e⟩ | ⟨_, _, e⟩
    · rw [e] at hw; cases hw
      exact .inl ⟨_, ⟨by simp, by simp, by simp [hr], by simp [his], by simp [Event.isVideo]⟩, rfl⟩
    · rw [e] at hw; cases hw
      refine .inl ⟨_, ⟨?_, by simp, by simp [hr], by simp [his], by simp⟩, rfl⟩
      intro idx v hv
      simp only [clobberRd_ramWrite, Option.some.injEq, Prod.mk.injEq] at hv
      exact hv.1 ▸ hidx
    · rw [e] at hw; cases hw; exact .inr ⟨_, rfl⟩
  cases i with
  | lui rd imm => exact .inl (hwb _ _ id h)
  | auipc rd imm => exact htr _ _ rfl trivial h
  | jal rd imm => exact htr _ _ rfl trivial h
  | jalr rd rs1 imm => exact htr _ _ rfl trivial h
  | beq rs1 rs2 imm => exact hbr _ _ _ _ rfl (by simp [Redirecting]) h
  | bne rs1 rs2 imm => exact hbr _ _ _ _ rfl (by simp [Redirecting]) h
  | blt rs1 rs2 imm => exact hbr _ _ _ _ rfl (by simp [Redirecting]) h
  | bge rs1 rs2 imm => exact hbr _ _ _ _ rfl (by simp [Redirecting]) h
  | bltu rs1 rs2 imm => exact hbr _ _ _ _ rfl (by simp [Redirecting]) h
  | bgeu rs1 rs2 imm => exact hbr _ _ _ _ rfl (by simp [Redirecting]) h
  | lb rd rs1 imm => exact hld _ _ _ id h
  | lh rd rs1 imm => exact hld _ _ _ id h
  | lw rd rs1 imm => exact hld _ _ _ id h
  | lbu rd rs1 imm => exact hld _ _ _ id h
  | lhu rd rs1 imm => exact hld _ _ _ id h
  | sb rs1 rs2 imm => exact hst _ _ _ rfl id h
  | sh rs1 rs2 imm => exact hst _ _ _ rfl id h
  | sw rs1 rs2 imm => exact hst _ _ _ rfl id h
  | addi rd rs1 imm => exact .inl (hwb _ _ id h)
  | slti rd rs1 imm => exact .inl (hwb _ _ id h)
  | sltiu rd rs1 imm => exact .inl (hwb _ _ id h)
  | xori rd rs1 imm => exact .inl (hwb _ _ id h)
  | ori rd rs1 imm => exact .inl (hwb _ _ id h)
  | andi rd rs1 imm => exact .inl (hwb _ _ id h)
  | slli rd rs1 shamt => exact .inl (hwb _ _ id h)
  | srli rd rs1 shamt => exact .inl (hwb _ _ id h)
  | srai rd rs1 shamt => exact .inl (hwb _ _ id h)
  | add rd rs1 rs2 => exact .inl (hwb _ _ id h)
  | sub rd rs1 rs2 => exact .inl (hwb _ _ id h)
  | sll rd rs1 rs2 => exact .inl (hwb _ _ id h)
  | slt rd rs1 rs2 => exact .inl (hwb _ _ id h)
  | sltu rd rs1 rs2 => exact .inl (hwb _ _ id h)
  | xor rd rs1 rs2 => exact .inl (hwb _ _ id h)
  | srl rd rs1 rs2 => exact .inl (hwb _ _ id h)
  | sra rd rs1 rs2 => exact .inl (hwb _ _ id h)
  | or rd rs1 rs2 => exact .inl (hwb _ _ id h)
  | and rd rs1 rs2 => exact .inl (hwb _ _ id h)
  | mul rd rs1 rs2 => exact .inl (hwb _ _ id h)
  | mulh rd rs1 rs2 => exact .inl (hwb _ _ id h)
  | mulhsu rd rs1 rs2 => exact .inl (hwb _ _ id h)
  | mulhu rd rs1 rs2 => exact .inl (hwb _ _ id h)
  | div rd rs1 rs2 =>
    simp only [exec, execDiv] at h
    split at h
    · exact .inl (hwb _ _ id h)
    · cases h
  | divu rd rs1 rs2 => exact .inl (hwb _ _ id h)
  | rem rd rs1 rs2 =>
    simp only [exec, execRem] at h
    split at h
    · exact .inl (hwb _ _ id h)
    · cases h
  | remu rd rs1 rs2 => exact .inl (hwb _ _ id h)
  | ecall => exact absurd rfl hi
  | ebreak =>
    cases h
    exact .inl ⟨_, ⟨by simp, by simp, by simp [Redirecting], by simp, by simp⟩, rfl⟩

/-- Service 4 meets the end of the ROM exactly when a word it asks for lies past it, and the fault
records the first such word. -/
theorem packedBytes_fault_iff (s : State) (f : FaultRecord) (n : Nat) : ∀ i : Nat,
    (packedBytes s i n).2 = some f ↔
      n ≠ 0 ∧ s.params.romWords < i + n ∧ f = .indexFault .rom (max i s.params.romWords) := by
  induction n with
  | zero => simp [packedBytes]
  | succ n ih =>
    intro i
    rcases romWord_cases s i with ⟨hi, e⟩ | ⟨hi, e⟩
    · have hm : max i s.params.romWords = max (i + 1) s.params.romWords := by omega
      have hn : (n ≠ 0 ∧ s.params.romWords < i + 1 + n) ↔ s.params.romWords < i + (n + 1) := by omega
      simp only [packedBytes, e, ih, hm, ← and_assoc, hn]
      simp
    · have hm : max i s.params.romWords = i := by omega
      have hn : s.params.romWords < i + (n + 1) := by omega
      simp [packedBytes, e, hm, hn, eq_comm]

/-- Every end of ECALL, by the service number. -/
theorem ecall_next_cases {s t : State} (h : exec .ecall s = .next t) :
    (s.x regA7 = 1 ∧ ∃ b rest, s.hostInput = b :: rest ∧
      t = { commit { rdWrite := some (regA0, b.setWidth 32),
                     calls := [.readByte (b.setWidth 32)] } s with hostInput := rest }) ∨
    (s.x regA7 = 1 ∧ s.hostInput = [] ∧ s.hostInputEnded = true ∧
      t = commit { rdWrite := some (regA0, Config.endOfInput s.freeCount),
                   calls := [.readByte (Config.endOfInput s.freeCount)], freeDrawn := 1 } s) ∨
    (s.x regA7 = 1 ∧ s.hostInput = [] ∧ s.hostInputEnded = false ∧ t = s) ∨
    (∃ bytes : List Byte, t = commit { calls := bytes.map .writeByte } s) ∨
    (s.x regA7 = 4 ∧ ∃ bytes : List Byte, ∃ f,
      t = { s with status := .faulted f, events := s.events ++ bytes.map .writeByte }) ∨
    (s.x regA7 = 10 ∧
      t = { s with status := .exited (s.x regA0), events := s.events ++ [.exit (s.x regA0)] }) := by
  simp only [exec, execEcall] at h
  split at h
  · rename_i h1
    simp only [serviceRead] at h
    split at h
    · rename_i b rest hin
      cases h
      exact .inl ⟨h1, b, rest, hin, rfl⟩
    · rename_i hin
      split at h
      · rename_i he
        cases h
        exact .inr (.inl ⟨h1, hin, he, rfl⟩)
      · rename_i he
        cases h
        exact .inr (.inr (.inl ⟨h1, hin, by simpa using he, rfl⟩))
  split at h
  · cases h
    exact .inr (.inr (.inr (.inl ⟨[_], rfl⟩)))
  split at h
  · rename_i h4
    simp only [serviceWriteRom] at h
    split at h
    · cases h
      exact .inr (.inr (.inr (.inl ⟨_, rfl⟩)))
    · cases h
      exact .inr (.inr (.inr (.inr (.inl ⟨h4, _, _, rfl⟩))))
  split at h
  · rename_i h10
    cases h
    exact .inr (.inr (.inr (.inr (.inr ⟨h10, rfl⟩))))
  · cases h
    exact .inr (.inr (.inr (.inl ⟨[], rfl⟩)))

/-! ## The step -/

theorem step_of_fetch {s : State} {i : Instr} (h : s.Ready) (hf : fetchInstr s = .ok i) :
    step s = exec i s := by
  simp [step, h.1, h.2, hf]

theorem step_of_fetch_fault {s : State} {f : FaultRecord} (h : s.Ready)
    (hf : fetchInstr s = .error f) : step s = raiseFault f s := by
  simp [step, h.1, h.2, hf]

theorem step_of_bubble {s : State} (h : s.status = .running) (hb : s.bubble ≠ 0) :
    step s = .next (bubbleTick s) := by
  simp [step, h, hb]

/-- Every step that answers a next state: an idle tick, a fault at the fetch, or the instruction
fetched. -/
theorem step_next_cases {s t : State} (h : step s = .next t) :
    s.status = .running ∧
    ((s.bubble ≠ 0 ∧ t = bubbleTick s) ∨
     (s.bubble = 0 ∧ ∃ f, fetchInstr s = .error f ∧ t = { s with status := .faulted f }) ∨
     (s.bubble = 0 ∧ ∃ i, fetchInstr s = .ok i ∧ exec i s = .next t)) := by
  simp only [step] at h
  split at h
  · cases h
  · cases h
  · rename_i hs
    refine ⟨hs, ?_⟩
    split at h
    · rename_i hb
      split at h
      · rename_i f hf
        cases h
        exact .inr (.inl ⟨hb, f, hf, rfl⟩)
      · rename_i i hi
        exact .inr (.inr ⟨hb, i, hi, h⟩)
    · rename_i hb
      cases h
      exact .inl ⟨hb, rfl⟩

/-! ## Runs -/

theorem core_run_zero (s : State) : core.run 0 s = .next s := rfl

theorem core_run_succ (k : Nat) (s : State) :
    core.run (k + 1) s =
      match step s with
      | .next t => core.run k t
      | .fault f => .fault f
      | .refused r => .refused r := by
  have h : core.step s = step s := rfl
  rw [← h]
  simp only [Host.Core.run]
  cases core.step s <;> rfl

theorem instrCore_run_zero (s : State) : instrCore.run 0 s = .next s := rfl

theorem instrCore_run_succ (k : Nat) (s : State) :
    instrCore.run (k + 1) s =
      match instrStep s with
      | .next t => instrCore.run k t
      | .fault f => .fault f
      | .refused r => .refused r := by
  have h : instrCore.step s = instrStep s := rfl
  rw [← h]
  simp only [Host.Core.run]
  cases instrCore.step s <;> rfl

end Sys2Proof.Machine
end

