-- ==== Sys2Proof/Laws/PerInstr.lean ====
section
/-! SUPPORT. Per instruction: the encoded word lies in the instruction's row of the opcode table. -/

/-- The word an instruction encodes to is its own row's instruction (spec/30_encoding.md R104). -/
def Sys2Proof.Laws.RowMatch.Statement (i : Sys2Proof.Instr) : Prop :=
  i.row.Matches (Sys2Proof.encode i)

open Sys2Proof

theorem Sys2Proof.Laws.RowMatch.lui (rd : RegIdx) (imm : Word) :
    Sys2Proof.Laws.RowMatch.Statement (.lui rd imm) := by
  simp [Sys2Proof.Laws.RowMatch.Statement, Instr.row, OpcodeRow.Matches, encode,
    and_opcodeMask]

theorem Sys2Proof.Laws.RowMatch.auipc (rd : RegIdx) (imm : Word) :
    Sys2Proof.Laws.RowMatch.Statement (.auipc rd imm) := by
  simp [Sys2Proof.Laws.RowMatch.Statement, Instr.row, OpcodeRow.Matches, encode,
    and_opcodeMask]

theorem Sys2Proof.Laws.RowMatch.jal (rd : RegIdx) (imm : Word) :
    Sys2Proof.Laws.RowMatch.Statement (.jal rd imm) := by
  simp [Sys2Proof.Laws.RowMatch.Statement, Instr.row, OpcodeRow.Matches, encode,
    and_opcodeMask]

theorem Sys2Proof.Laws.RowMatch.jalr (rd : RegIdx) (rs1 : RegIdx) (imm : Word) :
    Sys2Proof.Laws.RowMatch.Statement (.jalr rd rs1 imm) := by
  simp [Sys2Proof.Laws.RowMatch.Statement, Instr.row, OpcodeRow.Matches, encode,
    and_opcodeMask]

theorem Sys2Proof.Laws.RowMatch.beq (rs1 : RegIdx) (rs2 : RegIdx) (imm : Word) :
    Sys2Proof.Laws.RowMatch.Statement (.beq rs1 rs2 imm) := by
  simp [Sys2Proof.Laws.RowMatch.Statement, Instr.row, OpcodeRow.Matches, encode,
    and_funct3Mask]

theorem Sys2Proof.Laws.RowMatch.bne (rs1 : RegIdx) (rs2 : RegIdx) (imm : Word) :
    Sys2Proof.Laws.RowMatch.Statement (.bne rs1 rs2 imm) := by
  simp [Sys2Proof.Laws.RowMatch.Statement, Instr.row, OpcodeRow.Matches, encode,
    and_funct3Mask]

theorem Sys2Proof.Laws.RowMatch.blt (rs1 : RegIdx) (rs2 : RegIdx) (imm : Word) :
    Sys2Proof.Laws.RowMatch.Statement (.blt rs1 rs2 imm) := by
  simp [Sys2Proof.Laws.RowMatch.Statement, Instr.row, OpcodeRow.Matches, encode,
    and_funct3Mask]

theorem Sys2Proof.Laws.RowMatch.bge (rs1 : RegIdx) (rs2 : RegIdx) (imm : Word) :
    Sys2Proof.Laws.RowMatch.Statement (.bge rs1 rs2 imm) := by
  simp [Sys2Proof.Laws.RowMatch.Statement, Instr.row, OpcodeRow.Matches, encode,
    and_funct3Mask]

theorem Sys2Proof.Laws.RowMatch.bltu (rs1 : RegIdx) (rs2 : RegIdx) (imm : Word) :
    Sys2Proof.Laws.RowMatch.Statement (.bltu rs1 rs2 imm) := by
  simp [Sys2Proof.Laws.RowMatch.Statement, Instr.row, OpcodeRow.Matches, encode,
    and_funct3Mask]

theorem Sys2Proof.Laws.RowMatch.bgeu (rs1 : RegIdx) (rs2 : RegIdx) (imm : Word) :
    Sys2Proof.Laws.RowMatch.Statement (.bgeu rs1 rs2 imm) := by
  simp [Sys2Proof.Laws.RowMatch.Statement, Instr.row, OpcodeRow.Matches, encode,
    and_funct3Mask]

theorem Sys2Proof.Laws.RowMatch.lb (rd : RegIdx) (rs1 : RegIdx) (imm : Word) :
    Sys2Proof.Laws.RowMatch.Statement (.lb rd rs1 imm) := by
  simp [Sys2Proof.Laws.RowMatch.Statement, Instr.row, OpcodeRow.Matches, encode,
    and_funct3Mask]

theorem Sys2Proof.Laws.RowMatch.lh (rd : RegIdx) (rs1 : RegIdx) (imm : Word) :
    Sys2Proof.Laws.RowMatch.Statement (.lh rd rs1 imm) := by
  simp [Sys2Proof.Laws.RowMatch.Statement, Instr.row, OpcodeRow.Matches, encode,
    and_funct3Mask]

theorem Sys2Proof.Laws.RowMatch.lw (rd : RegIdx) (rs1 : RegIdx) (imm : Word) :
    Sys2Proof.Laws.RowMatch.Statement (.lw rd rs1 imm) := by
  simp [Sys2Proof.Laws.RowMatch.Statement, Instr.row, OpcodeRow.Matches, encode,
    and_funct3Mask]

theorem Sys2Proof.Laws.RowMatch.lbu (rd : RegIdx) (rs1 : RegIdx) (imm : Word) :
    Sys2Proof.Laws.RowMatch.Statement (.lbu rd rs1 imm) := by
  simp [Sys2Proof.Laws.RowMatch.Statement, Instr.row, OpcodeRow.Matches, encode,
    and_funct3Mask]

theorem Sys2Proof.Laws.RowMatch.lhu (rd : RegIdx) (rs1 : RegIdx) (imm : Word) :
    Sys2Proof.Laws.RowMatch.Statement (.lhu rd rs1 imm) := by
  simp [Sys2Proof.Laws.RowMatch.Statement, Instr.row, OpcodeRow.Matches, encode,
    and_funct3Mask]

theorem Sys2Proof.Laws.RowMatch.sb (rs1 : RegIdx) (rs2 : RegIdx) (imm : Word) :
    Sys2Proof.Laws.RowMatch.Statement (.sb rs1 rs2 imm) := by
  simp [Sys2Proof.Laws.RowMatch.Statement, Instr.row, OpcodeRow.Matches, encode,
    and_funct3Mask]

theorem Sys2Proof.Laws.RowMatch.sh (rs1 : RegIdx) (rs2 : RegIdx) (imm : Word) :
    Sys2Proof.Laws.RowMatch.Statement (.sh rs1 rs2 imm) := by
  simp [Sys2Proof.Laws.RowMatch.Statement, Instr.row, OpcodeRow.Matches, encode,
    and_funct3Mask]

theorem Sys2Proof.Laws.RowMatch.sw (rs1 : RegIdx) (rs2 : RegIdx) (imm : Word) :
    Sys2Proof.Laws.RowMatch.Statement (.sw rs1 rs2 imm) := by
  simp [Sys2Proof.Laws.RowMatch.Statement, Instr.row, OpcodeRow.Matches, encode,
    and_funct3Mask]

theorem Sys2Proof.Laws.RowMatch.addi (rd : RegIdx) (rs1 : RegIdx) (imm : Word) :
    Sys2Proof.Laws.RowMatch.Statement (.addi rd rs1 imm) := by
  simp [Sys2Proof.Laws.RowMatch.Statement, Instr.row, OpcodeRow.Matches, encode,
    and_funct3Mask]

theorem Sys2Proof.Laws.RowMatch.slti (rd : RegIdx) (rs1 : RegIdx) (imm : Word) :
    Sys2Proof.Laws.RowMatch.Statement (.slti rd rs1 imm) := by
  simp [Sys2Proof.Laws.RowMatch.Statement, Instr.row, OpcodeRow.Matches, encode,
    and_funct3Mask]

theorem Sys2Proof.Laws.RowMatch.sltiu (rd : RegIdx) (rs1 : RegIdx) (imm : Word) :
    Sys2Proof.Laws.RowMatch.Statement (.sltiu rd rs1 imm) := by
  simp [Sys2Proof.Laws.RowMatch.Statement, Instr.row, OpcodeRow.Matches, encode,
    and_funct3Mask]

theorem Sys2Proof.Laws.RowMatch.xori (rd : RegIdx) (rs1 : RegIdx) (imm : Word) :
    Sys2Proof.Laws.RowMatch.Statement (.xori rd rs1 imm) := by
  simp [Sys2Proof.Laws.RowMatch.Statement, Instr.row, OpcodeRow.Matches, encode,
    and_funct3Mask]

theorem Sys2Proof.Laws.RowMatch.ori (rd : RegIdx) (rs1 : RegIdx) (imm : Word) :
    Sys2Proof.Laws.RowMatch.Statement (.ori rd rs1 imm) := by
  simp [Sys2Proof.Laws.RowMatch.Statement, Instr.row, OpcodeRow.Matches, encode,
    and_funct3Mask]

theorem Sys2Proof.Laws.RowMatch.andi (rd : RegIdx) (rs1 : RegIdx) (imm : Word) :
    Sys2Proof.Laws.RowMatch.Statement (.andi rd rs1 imm) := by
  simp [Sys2Proof.Laws.RowMatch.Statement, Instr.row, OpcodeRow.Matches, encode,
    and_funct3Mask]

theorem Sys2Proof.Laws.RowMatch.slli (rd : RegIdx) (rs1 : RegIdx) (shamt : ShiftAmount) :
    Sys2Proof.Laws.RowMatch.Statement (.slli rd rs1 shamt) := by
  simp [Sys2Proof.Laws.RowMatch.Statement, Instr.row, OpcodeRow.Matches, encode,
    and_funct3Mask]

theorem Sys2Proof.Laws.RowMatch.srli (rd : RegIdx) (rs1 : RegIdx) (shamt : ShiftAmount) :
    Sys2Proof.Laws.RowMatch.Statement (.srli rd rs1 shamt) := by
  simp [Sys2Proof.Laws.RowMatch.Statement, Instr.row, OpcodeRow.Matches, encode,
    and_funct7Mask]

theorem Sys2Proof.Laws.RowMatch.srai (rd : RegIdx) (rs1 : RegIdx) (shamt : ShiftAmount) :
    Sys2Proof.Laws.RowMatch.Statement (.srai rd rs1 shamt) := by
  simp [Sys2Proof.Laws.RowMatch.Statement, Instr.row, OpcodeRow.Matches, encode,
    and_funct7Mask]

theorem Sys2Proof.Laws.RowMatch.add (rd : RegIdx) (rs1 : RegIdx) (rs2 : RegIdx) :
    Sys2Proof.Laws.RowMatch.Statement (.add rd rs1 rs2) := by
  simp [Sys2Proof.Laws.RowMatch.Statement, Instr.row, OpcodeRow.Matches, encode,
    and_funct7Mask]

theorem Sys2Proof.Laws.RowMatch.sub (rd : RegIdx) (rs1 : RegIdx) (rs2 : RegIdx) :
    Sys2Proof.Laws.RowMatch.Statement (.sub rd rs1 rs2) := by
  simp [Sys2Proof.Laws.RowMatch.Statement, Instr.row, OpcodeRow.Matches, encode,
    and_funct7Mask]

theorem Sys2Proof.Laws.RowMatch.sll (rd : RegIdx) (rs1 : RegIdx) (rs2 : RegIdx) :
    Sys2Proof.Laws.RowMatch.Statement (.sll rd rs1 rs2) := by
  simp [Sys2Proof.Laws.RowMatch.Statement, Instr.row, OpcodeRow.Matches, encode,
    and_funct7Mask]

theorem Sys2Proof.Laws.RowMatch.slt (rd : RegIdx) (rs1 : RegIdx) (rs2 : RegIdx) :
    Sys2Proof.Laws.RowMatch.Statement (.slt rd rs1 rs2) := by
  simp [Sys2Proof.Laws.RowMatch.Statement, Instr.row, OpcodeRow.Matches, encode,
    and_funct7Mask]

theorem Sys2Proof.Laws.RowMatch.sltu (rd : RegIdx) (rs1 : RegIdx) (rs2 : RegIdx) :
    Sys2Proof.Laws.RowMatch.Statement (.sltu rd rs1 rs2) := by
  simp [Sys2Proof.Laws.RowMatch.Statement, Instr.row, OpcodeRow.Matches, encode,
    and_funct7Mask]

theorem Sys2Proof.Laws.RowMatch.xor (rd : RegIdx) (rs1 : RegIdx) (rs2 : RegIdx) :
    Sys2Proof.Laws.RowMatch.Statement (.xor rd rs1 rs2) := by
  simp [Sys2Proof.Laws.RowMatch.Statement, Instr.row, OpcodeRow.Matches, encode,
    and_funct7Mask]

theorem Sys2Proof.Laws.RowMatch.srl (rd : RegIdx) (rs1 : RegIdx) (rs2 : RegIdx) :
    Sys2Proof.Laws.RowMatch.Statement (.srl rd rs1 rs2) := by
  simp [Sys2Proof.Laws.RowMatch.Statement, Instr.row, OpcodeRow.Matches, encode,
    and_funct7Mask]

theorem Sys2Proof.Laws.RowMatch.sra (rd : RegIdx) (rs1 : RegIdx) (rs2 : RegIdx) :
    Sys2Proof.Laws.RowMatch.Statement (.sra rd rs1 rs2) := by
  simp [Sys2Proof.Laws.RowMatch.Statement, Instr.row, OpcodeRow.Matches, encode,
    and_funct7Mask]

theorem Sys2Proof.Laws.RowMatch.or (rd : RegIdx) (rs1 : RegIdx) (rs2 : RegIdx) :
    Sys2Proof.Laws.RowMatch.Statement (.or rd rs1 rs2) := by
  simp [Sys2Proof.Laws.RowMatch.Statement, Instr.row, OpcodeRow.Matches, encode,
    and_funct7Mask]

theorem Sys2Proof.Laws.RowMatch.and (rd : RegIdx) (rs1 : RegIdx) (rs2 : RegIdx) :
    Sys2Proof.Laws.RowMatch.Statement (.and rd rs1 rs2) := by
  simp [Sys2Proof.Laws.RowMatch.Statement, Instr.row, OpcodeRow.Matches, encode,
    and_funct7Mask]

theorem Sys2Proof.Laws.RowMatch.mul (rd : RegIdx) (rs1 : RegIdx) (rs2 : RegIdx) :
    Sys2Proof.Laws.RowMatch.Statement (.mul rd rs1 rs2) := by
  simp [Sys2Proof.Laws.RowMatch.Statement, Instr.row, OpcodeRow.Matches, encode,
    and_funct7Mask]

theorem Sys2Proof.Laws.RowMatch.mulh (rd : RegIdx) (rs1 : RegIdx) (rs2 : RegIdx) :
    Sys2Proof.Laws.RowMatch.Statement (.mulh rd rs1 rs2) := by
  simp [Sys2Proof.Laws.RowMatch.Statement, Instr.row, OpcodeRow.Matches, encode,
    and_funct7Mask]

theorem Sys2Proof.Laws.RowMatch.mulhsu (rd : RegIdx) (rs1 : RegIdx) (rs2 : RegIdx) :
    Sys2Proof.Laws.RowMatch.Statement (.mulhsu rd rs1 rs2) := by
  simp [Sys2Proof.Laws.RowMatch.Statement, Instr.row, OpcodeRow.Matches, encode,
    and_funct7Mask]

theorem Sys2Proof.Laws.RowMatch.mulhu (rd : RegIdx) (rs1 : RegIdx) (rs2 : RegIdx) :
    Sys2Proof.Laws.RowMatch.Statement (.mulhu rd rs1 rs2) := by
  simp [Sys2Proof.Laws.RowMatch.Statement, Instr.row, OpcodeRow.Matches, encode,
    and_funct7Mask]

theorem Sys2Proof.Laws.RowMatch.div (rd : RegIdx) (rs1 : RegIdx) (rs2 : RegIdx) :
    Sys2Proof.Laws.RowMatch.Statement (.div rd rs1 rs2) := by
  simp [Sys2Proof.Laws.RowMatch.Statement, Instr.row, OpcodeRow.Matches, encode,
    and_funct7Mask]

theorem Sys2Proof.Laws.RowMatch.divu (rd : RegIdx) (rs1 : RegIdx) (rs2 : RegIdx) :
    Sys2Proof.Laws.RowMatch.Statement (.divu rd rs1 rs2) := by
  simp [Sys2Proof.Laws.RowMatch.Statement, Instr.row, OpcodeRow.Matches, encode,
    and_funct7Mask]

theorem Sys2Proof.Laws.RowMatch.rem (rd : RegIdx) (rs1 : RegIdx) (rs2 : RegIdx) :
    Sys2Proof.Laws.RowMatch.Statement (.rem rd rs1 rs2) := by
  simp [Sys2Proof.Laws.RowMatch.Statement, Instr.row, OpcodeRow.Matches, encode,
    and_funct7Mask]

theorem Sys2Proof.Laws.RowMatch.remu (rd : RegIdx) (rs1 : RegIdx) (rs2 : RegIdx) :
    Sys2Proof.Laws.RowMatch.Statement (.remu rd rs1 rs2) := by
  simp [Sys2Proof.Laws.RowMatch.Statement, Instr.row, OpcodeRow.Matches, encode,
    and_funct7Mask]

theorem Sys2Proof.Laws.RowMatch.ecall :
    Sys2Proof.Laws.RowMatch.Statement .ecall := by
  simp [Sys2Proof.Laws.RowMatch.Statement, Instr.row, OpcodeRow.Matches, encode,
    and_systemMask]

theorem Sys2Proof.Laws.RowMatch.ebreak :
    Sys2Proof.Laws.RowMatch.Statement .ebreak := by
  simp [Sys2Proof.Laws.RowMatch.Statement, Instr.row, OpcodeRow.Matches, encode,
    and_systemMask]
end

