-- ==== Sys2Proof/Tests/Slice0.lean ====
section
/-! SUPPORT. Tests. The expected results are the spec's: the vectors S, V, programs P and fault runs
F of spec/95_test_vectors.md, and the worked words of the rules. The last part shows, for each
obligation with hypotheses, states and operands that meet them. -/

open Sys2Proof
open Sys2Proof.Machine

namespace Sys2Proof.Tests

/-! ## Helpers -/

/-- The state an outcome answers; the start state where it answers none. -/
def stateAfter (s : State) : Result → State
  | .next t => t
  | .fault _ => s
  | .refused _ => s

/-- The outcome is a next state. -/
def isNext : Result → Bool
  | .next _ => true
  | .fault _ => false
  | .refused _ => false

theorem eq_next {o : Result} (s : State) (h : isNext o = true) : o = .next (stateAfter s o) := by
  cases o <;> simp_all [isNext, stateAfter]

/-- The start state of the spec's vectors: reset, ROM_WORDS and RAM_WORDS 1024, with a program counter
and some registers given. -/
def st (pc : Word) (regs : List (RegIdx × Word)) : State :=
  { State.reset with
    pc := pc
    regs := regs.foldl (fun v c => writeReg v c.1 c.2) State.reset.regs
    params := { Config.resetParams with romWords := 1024, ramWords := 1024 } }

/-- One tick with the word at the program counter. -/
def tick (w : Word) (s : State) : State := stateAfter s (step (s.withFetchWord 32 w.toNat))

/-- `x5` after one tick of a word on `x6` and `x7`. -/
def x5 (w a b : Word) : Word := (tick w (st 0 [(6, a), (7, b)])).x 5

/-- A start state with the image in ROM. -/
def image (ws : List Word) (s : State) : State := s.loadImage ws

/-- The status after one tick with the image. -/
def ending (ws : List Word) (s : State) : Status := (stateAfter s (step (image ws s))).status

/-! ## WellFormed refuses what no format carries -/

theorem test_wf_refuses_wide_i : (Instr.addi 1 0 0x800#32).wf = false := by decide
theorem test_wf_refuses_wide_s : (Instr.sw 1 2 0xFFFFF7FF#32).wf = false := by decide
theorem test_wf_refuses_wide_b : (Instr.beq 1 2 0x1000#32).wf = false := by decide
theorem test_wf_refuses_odd_b : (Instr.bgeu 1 2 3#32).wf = false := by decide
theorem test_wf_refuses_low_u : (Instr.lui 1 0x1800#32).wf = false := by decide
theorem test_wf_refuses_wide_j : (Instr.jal 1 0x100000#32).wf = false := by decide
theorem test_wf_refuses_odd_j : (Instr.jal 1 1#32).wf = false := by decide

/-! ## Decoding: the fields written out from R93, R94 and R104, one word for every constructor -/

/-- V1, V4. Fields: imm[31:12], rd, opcode. -/
theorem test_decode_upper :
    decodeWord 0b00010010001101000101_00101_0110111#32 = .ok (.lui 5 0x12345000#32) ∧
    decodeWord 0b00000000000000000001_00111_0010111#32 = .ok (.auipc 7 0x1000#32) := by decide

/-- V13, V11, V12, V17. Fields of JAL: imm[20], imm[10:1], imm[11], imm[19:12], rd, opcode. -/
theorem test_decode_jumps :
    decodeWord 0b0_0000000000_1_00000000_00001_1101111#32 = .ok (.jal 1 0x800#32) ∧
    decodeWord 0b1_0000000000_0_00000000_00001_1101111#32 = .ok (.jal 1 0xFFF00000#32) ∧
    decodeWord 0b0_1111111111_1_11111111_00001_1101111#32 = .ok (.jal 1 0xFFFFE#32) ∧
    decodeWord 0b000000000000_00101_000_00101_1100111#32 = .ok (.jalr 5 5 0#32) := by decide

/-- V25, V20 to V24. Fields: imm[12], imm[10:5], rs2, rs1, funct3, imm[4:1], imm[11], opcode. -/
theorem test_decode_branches :
    decodeWord 0b1_000000_00111_00110_000_0000_0_1100011#32 = .ok (.beq 6 7 0xFFFFF000#32) ∧
    decodeWord 0b1_111111_00010_00001_001_1110_1_1100011#32 = .ok (.bne 1 2 0xFFFFFFFC#32) ∧
    decodeWord 0b0_000000_00111_00110_100_1000_0_1100011#32 = .ok (.blt 6 7 16#32) ∧
    decodeWord 0b0_000000_00111_00110_101_1000_0_1100011#32 = .ok (.bge 6 7 16#32) ∧
    decodeWord 0b0_000000_00111_00110_110_1000_0_1100011#32 = .ok (.bltu 6 7 16#32) ∧
    decodeWord 0b0_111111_00111_00110_111_1111_1_1100011#32 = .ok (.bgeu 6 7 0xFFE#32) := by decide

/-- The load and store words of spec/95_test_vectors.md. Fields of a load: imm[11:0], rs1, funct3, rd,
opcode; of a store: imm[11:5], rs2, rs1, funct3, imm[4:0], opcode. -/
theorem test_decode_memory :
    decodeWord 0b000000001000_00110_000_00101_0000011#32 = .ok (.lb 5 6 8#32) ∧
    decodeWord 0b000000001000_00110_001_00101_0000011#32 = .ok (.lh 5 6 8#32) ∧
    decodeWord 0b100000000000_00110_010_00101_0000011#32 = .ok (.lw 5 6 0xFFFFF800#32) ∧
    decodeWord 0b000000001000_00110_100_00101_0000011#32 = .ok (.lbu 5 6 8#32) ∧
    decodeWord 0b000000001000_00110_101_00101_0000011#32 = .ok (.lhu 5 6 8#32) ∧
    decodeWord 0b0000000_00111_00000_000_00101_0100011#32 = .ok (.sb 0 7 5#32) ∧
    decodeWord 0b1111111_00101_00110_001_11100_0100011#32 = .ok (.sh 6 5 0xFFFFFFFC#32) ∧
    decodeWord 0b0111111_11111_11111_010_11111_0100011#32 = .ok (.sw 31 31 2047#32) := by decide

/-- S1, V44 to V48. Fields: imm[11:0], rs1, funct3, rd, opcode. -/
theorem test_decode_immediate :
    decodeWord 0b111111111111_00000_000_00001_0010011#32 = .ok (.addi 1 0 0xFFFFFFFF#32) ∧
    decodeWord 0b111111111111_00110_010_00101_0010011#32 = .ok (.slti 5 6 0xFFFFFFFF#32) ∧
    decodeWord 0b000000000001_00110_011_00101_0010011#32 = .ok (.sltiu 5 6 1#32) ∧
    decodeWord 0b111111111111_00110_100_00101_0010011#32 = .ok (.xori 5 6 0xFFFFFFFF#32) ∧
    decodeWord 0b011111111111_00110_110_00101_0010011#32 = .ok (.ori 5 6 2047#32) ∧
    decodeWord 0b111111110000_00110_111_00101_0010011#32 = .ok (.andi 5 6 0xFFFFFFF0#32) := by decide

/-- V51, V57, V53, V55. Fields: funct7, shamt, rs1, funct3, rd, opcode. SLLI ignores funct7. -/
theorem test_decode_shifts :
    decodeWord 0b0000000_00001_00110_001_00101_0010011#32 = .ok (.slli 5 6 1) ∧
    decodeWord 0b0100000_00000_00000_001_00000_0010011#32 = .ok (.slli 0 0 0) ∧
    decodeWord 0b0000000_11111_00110_101_00101_0010011#32 = .ok (.srli 5 6 31) ∧
    decodeWord 0b0100000_11110_00110_101_00101_0010011#32 = .ok (.srai 5 6 30) := by decide

/-- V70 to V79. Fields: funct7, rs2, rs1, funct3, rd, opcode. -/
theorem test_decode_register :
    decodeWord 0b0000000_00111_00110_000_00101_0110011#32 = .ok (.add 5 6 7) ∧
    decodeWord 0b0100000_00111_00110_000_00101_0110011#32 = .ok (.sub 5 6 7) ∧
    decodeWord 0b0000000_00111_00110_001_00101_0110011#32 = .ok (.sll 5 6 7) ∧
    decodeWord 0b0000000_00111_00110_010_00101_0110011#32 = .ok (.slt 5 6 7) ∧
    decodeWord 0b0000000_00111_00110_011_00101_0110011#32 = .ok (.sltu 5 6 7) ∧
    decodeWord 0b0000000_00111_00110_100_00101_0110011#32 = .ok (.xor 5 6 7) ∧
    decodeWord 0b0000000_00111_00110_101_00101_0110011#32 = .ok (.srl 5 6 7) ∧
    decodeWord 0b0100000_00111_00110_101_00101_0110011#32 = .ok (.sra 5 6 7) ∧
    decodeWord 0b0000000_00111_00110_110_00101_0110011#32 = .ok (.or 5 6 7) ∧
    decodeWord 0b0000000_00111_00110_111_00101_0110011#32 = .ok (.and 5 6 7) := by decide

/-- V90 to V101. -/
theorem test_decode_multiply :
    decodeWord 0b0000001_00111_00110_000_00101_0110011#32 = .ok (.mul 5 6 7) ∧
    decodeWord 0b0000001_00111_00110_001_00101_0110011#32 = .ok (.mulh 5 6 7) ∧
    decodeWord 0b0000001_00111_00110_010_00101_0110011#32 = .ok (.mulhsu 5 6 7) ∧
    decodeWord 0b0000001_00111_00110_011_00101_0110011#32 = .ok (.mulhu 5 6 7) ∧
    decodeWord 0b0000001_00111_00110_100_00101_0110011#32 = .ok (.div 5 6 7) ∧
    decodeWord 0b0000001_00111_00110_101_00101_0110011#32 = .ok (.divu 5 6 7) ∧
    decodeWord 0b0000001_00111_00110_110_00101_0110011#32 = .ok (.rem 5 6 7) ∧
    decodeWord 0b0000001_00111_00110_111_00101_0110011#32 = .ok (.remu 5 6 7) := by decide

/-- V110 to V114, V120: the fields the decoder does not examine. -/
theorem test_decode_system :
    decodeWord 0x00000073#32 = .ok .ecall ∧ decodeWord 0x00100073#32 = .ok .ecall ∧
    decodeWord 0x00001073#32 = .ok .ecall ∧ decodeWord 0x02000073#32 = .ok .ebreak ∧
    decodeWord 0x02001073#32 = .ok .ebreak ∧ decodeWord 0x0000a067#32 = .ok (.jalr 0 1 0#32) := by
  decide

/-- V58, V80, V81, V115 to V119, V121. -/
theorem test_decode_rejects :
    decodeWord 0x80005013#32 = .error .opImmFunct7 ∧ decodeWord 0x40001033#32 = .error .opFunct ∧
    decodeWord 0x04000033#32 = .error .opFunct ∧ decodeWord 0x04000073#32 = .error .systemFunct7 ∧
    decodeWord 0x30200073#32 = .error .systemFunct7 ∧
    decodeWord 0x10500073#32 = .error .systemFunct7 ∧
    decodeWord 0#32 = .error .opcode ∧ decodeWord 0xFFFFFFFF#32 = .error .opcode ∧
    decodeWord 0x0ff0000f#32 = .error .opcode ∧ decodeWord 0x00002063#32 = .error .branchFunct3 ∧
    decodeWord 0x00003003#32 = .error .loadFunct3 ∧
    decodeWord 0x00003023#32 = .error .storeFunct3 ∧
    decodeWord 0x00004501#32 = .error .opcode ∧ decode [0x73, 0, 0] = .error .truncated := by decide

/-- V13 as the table numbers its bits, and through the bytes. -/
theorem test_decode_table_word :
    decodeTableWord 32 0x001000ef = some (.jal 1 0x800#32) ∧ decodeTableWord 32 0 = none ∧
    encode (.jal 1 0x800#32) = 0x001000ef#32 ∧ encode (.beq 6 7 0xFFFFF000#32) = 0x80730063#32 := by
  decide

/-! ## Upper immediate, jumps and branches -/

/-- V2. -/
theorem test_lui : (tick 0xfffff2b7#32 (st 0 [])).x 5 = 0xFFFFF000#32 := by decide
/-- V4. -/
theorem test_auipc_jumps :
    (tick 0x00001397#32 (st 8 [(7, 3)])).pc = 0x1008#32 ∧
    (tick 0x00001397#32 (st 8 [(7, 3)])).x 7 = 3 := by decide
/-- V10. -/
theorem test_jal :
    (tick 0x008000ef#32 (st 0x100 [])).pc = 0x108#32 ∧
    (tick 0x008000ef#32 (st 0x100 [])).x 1 = 0x104#32 := by decide
/-- F1. -/
theorem test_jal_misaligned : ending [0x0060006f#32] (st 0 []) = .faulted (.alignmentFault 6) := by
  decide
/-- V15. -/
theorem test_jalr_clears_bit_zero :
    (tick 0x000280e7#32 (st 4 [(5, 9)])).pc = 8 ∧ (tick 0x000280e7#32 (st 4 [(5, 9)])).x 1 = 8 := by
  decide
/-- V17. -/
theorem test_jalr_uses_old_register :
    (tick 0x000282e7#32 (st 0x10 [(5, 0x40)])).pc = 0x40#32 ∧
    (tick 0x000282e7#32 (st 0x10 [(5, 0x40)])).x 5 = 0x14#32 := by decide
/-- V18, V19, S7: a redirect starts two idle ticks, an untaken branch none. -/
theorem test_beq :
    (tick 0x00208463#32 (st 0 [(1, 5), (2, 5)])).pc = 8 ∧
    (tick 0x00208463#32 (st 0 [(1, 5), (2, 5)])).bubble = 2 ∧
    (tick 0x00208463#32 (st 0 [(1, 5)])).pc = 4 ∧
    (tick 0x00208463#32 (st 0 [(1, 5)])).bubble = 0 := by decide
/-- F2 (V27). -/
theorem test_beq_untaken_misaligned :
    (tick 0x00008363#32 (st 4 [(1, 1)])).status = .faulted (.alignmentFault 0xA#32) := by decide
/-- V20. -/
theorem test_bne :
    (tick 0xfe209ee3#32 (st 0x10 [(1, 1)])).pc = 0xc#32 ∧
    (tick 0xfe209ee3#32 (st 0x10 [])).pc = 0x14#32 := by decide
/-- V21, V22. -/
theorem test_blt_signed :
    (tick 0x00734863#32 (st 0 [(6, 0xFFFFFFFF#32), (7, 1)])).pc = 16#32 ∧
    (tick 0x00736863#32 (st 0 [(6, 0xFFFFFFFF#32), (7, 1)])).pc = 4 := by decide
/-- R169. -/
theorem test_bltu : (tick 0x00736863#32 (st 0 [(6, 1), (7, 0xFFFFFFFF#32)])).pc = 16#32 := by decide
/-- V23; R168 on -1 and 1. -/
theorem test_bge :
    (tick 0x00735863#32 (st 0 [(6, 0x80000000#32), (7, 0x80000000#32)])).pc = 16#32 ∧
    (tick 0x00735863#32 (st 0 [(6, 0xFFFFFFFF#32), (7, 1)])).pc = 4 := by decide
/-- V24; R170 on equal operands. -/
theorem test_bgeu :
    (tick 0x00737863#32 (st 0 [(7, 1)])).pc = 4 ∧ (tick 0x00737863#32 (st 0 [])).pc = 16#32 := by
  decide
/-! ## Loads and stores -/

/-- A RAM with one word. -/
def withRam (i : Nat) (w : Word) (s : State) : State := { s with ram := s.ram.setWord i w }

/-- V33: no byte select, no sign extension. -/
theorem test_lb :
    (tick 0x00300283#32 (withRam 0 0xFF#32 (st 0 []))).x 5 = 0xFF#32 := by decide
/-- P4, `0x28`. -/
theorem test_lh : (tick 0x00201603#32 (withRam 0 0xFFFFFFFF#32 (st 0 []))).x 12 = 0xFFFFFFFF#32 := by
  decide
/-- V31. -/
theorem test_lw :
    (tick 0x00832283#32 (withRam 0x42 0xCAFEBABE#32 (st 0 [(6, 0x100)]))).x 5 = 0xCAFEBABE#32 := by
  decide
/-- V35, V36. -/
theorem test_lw_index :
    (tick 0x00032283#32 (st 0 [(6, 0x1000)])).status = .faulted (.indexFault .ram 1024) ∧
    (tick 0x00042283#32 (st 0 [(8, 0x00400000#32)])).status =
      .faulted (.indexFault .ram 1048576) := by decide
/-- P4, `0x20`. -/
theorem test_lbu :
    (tick 0x00404483#32 (withRam 1 0x12345678#32 (st 0 []))).x 9 = 0x12345678#32 := by decide
/-- V34. -/
theorem test_lhu :
    (tick 0x00205283#32 (withRam 0 0x89ABCDEF#32 (st 0 []))).x 5 = 0x89ABCDEF#32 := by decide
/-- V32: the whole word. -/
theorem test_sb :
    (tick 0x007002a3#32 (withRam 1 0xAAAAAAAA#32 (st 0 [(7, 0x11223344#32)]))).ram.wordAt 1 =
      0x11223344#32 := by decide
/-- P4, `0x18`. -/
theorem test_sh :
    (tick 0x00501323#32 (st 0 [(5, 0x12345678#32)])).ram.wordAt 1 = 0x12345678#32 := by decide
/-- V30, with the byte order of log 6. -/
theorem test_sw :
    (tick 0x00532423#32 (st 0 [(5, 0xCAFEBABE#32), (6, 0x100)])).ram =
      [(0x108, 0xBE), (0x109, 0xBA), (0x10A, 0xFE), (0x10B, 0xCA)] := by decide
/-- V37, V38, F10. -/
theorem test_sw_elsewhere :
    (tick 0x00642823#32 (st 0 [(8, 0x00400000#32), (6, 0x7FFFFFFF#32)])).events =
      [.video 0x10#32 0x7FFFFFFF#32] ∧
    (tick 0xfe502e23#32 (st 0 [(5, 1)])).events = [.video 0xFFBFFFFC#32 1] ∧
    (tick 0x0002a023#32 (st 0 [(5, 0x1000)])).status = .faulted (.indexFault .ram 1024) := by decide

/-! ## The ALU -/

/-- V41, V42. -/
theorem test_addi :
    x5 0x00130293#32 0xFFFFFFFF#32 0 = 0 ∧ x5 0x00130293#32 0x7FFFFFFF#32 0 = 0x80000000#32 := by
  decide
/-- S2: `ADDI x0, x0, 5` writes nothing. -/
theorem test_addi_x0 : (tick 0x00500013#32 (st 0 [])).x 0 = 0 := by decide
/-- V43, V44. -/
theorem test_slti : x5 0x00032293#32 0xFFFFFFFF#32 0 = 1 ∧ x5 0xfff32293#32 0 0 = 0 := by decide
/-- V45, V46. -/
theorem test_sltiu : x5 0xfff33293#32 5 0 = 1 ∧ x5 0x00133293#32 0 0 = 1 := by decide
/-- V47. -/
theorem test_xori : x5 0xfff34293#32 0x0F0F0F0F#32 0 = 0xF0F0F0F0#32 := by decide
/-- V48. -/
theorem test_ori : x5 0x7ff36293#32 0x100#32 0 = 0x7FF#32 := by decide
/-- V49, V50. -/
theorem test_andi :
    x5 0xff037293#32 0xDEADBEEF#32 0 = 0xDEADBEE0#32 ∧
    x5 0x0ff37293#32 0xDEADBEEF#32 0 = 0xEF#32 := by decide
/-- V51, V52. -/
theorem test_slli : x5 0x00131293#32 0x80000001#32 0 = 2 ∧ x5 0x01f31293#32 1 0 = 0x80000000#32 := by
  decide
/-- V53, V56. -/
theorem test_srli :
    x5 0x01f35293#32 0x80000000#32 0 = 1 ∧ x5 0x00035293#32 0xFFFFFFFF#32 0 = 0xFFFFFFFF#32 := by
  decide
/-- V54, V55. -/
theorem test_srai :
    x5 0x41f35293#32 0x80000000#32 0 = 0xFFFFFFFF#32 ∧ x5 0x41e35293#32 0x40000000#32 0 = 1 := by
  decide
/-- V70. -/
theorem test_add : x5 0x007302b3#32 0x7FFFFFFF#32 1 = 0x80000000#32 := by decide
/-- V71. -/
theorem test_sub : x5 0x407302b3#32 0 1 = 0xFFFFFFFF#32 := by decide
/-- V72. -/
theorem test_sll : x5 0x007312b3#32 1 0x21#32 = 2 := by decide
/-- V73. -/
theorem test_slt : x5 0x007322b3#32 0x80000000#32 1 = 1 := by decide
/-- V74; R225 with the operands the other way round. -/
theorem test_sltu : x5 0x007332b3#32 0x80000000#32 1 = 0 ∧ x5 0x007332b3#32 1 0x80000000#32 = 1 := by
  decide
/-- V75. -/
theorem test_xor : x5 0x007342b3#32 0xFF00FF00#32 0x0FF00FF0#32 = 0xF0F0F0F0#32 := by decide
/-- V76. -/
theorem test_srl : x5 0x007352b3#32 0x80000000#32 31 = 1 := by decide
/-- V77. -/
theorem test_sra : x5 0x407352b3#32 0x80000000#32 31 = 0xFFFFFFFF#32 := by decide
/-- V78. -/
theorem test_or : x5 0x007362b3#32 0xF0#32 0x0F#32 = 0xFF#32 := by decide
/-- V79. -/
theorem test_and : x5 0x007372b3#32 0xFF#32 0xF0#32 = 0xF0#32 := by decide
/-- V90, V97. -/
theorem test_mul :
    x5 0x027302b3#32 0xFFFFFFFF#32 0xFFFFFFFF#32 = 1 ∧
    x5 0x027302b3#32 0x12345678#32 0x9ABCDEF0#32 = 0x242D2080#32 := by decide
/-- V91, V97. -/
theorem test_mulh :
    x5 0x027312b3#32 0xFFFFFFFF#32 0xFFFFFFFF#32 = 0 ∧
    x5 0x027312b3#32 0x12345678#32 0x9ABCDEF0#32 = 0xF8CC93D6#32 := by decide
/-- V92, V95. -/
theorem test_mulhsu :
    x5 0x027322b3#32 0xFFFFFFFF#32 0xFFFFFFFF#32 = 0xFFFFFFFF#32 ∧
    x5 0x027322b3#32 0x80000000#32 0x80000000#32 = 0xC0000000#32 := by decide
/-- V93, V97. -/
theorem test_mulhu :
    x5 0x027332b3#32 0xFFFFFFFF#32 0xFFFFFFFF#32 = 0xFFFFFFFE#32 ∧
    x5 0x027332b3#32 0x12345678#32 0x9ABCDEF0#32 = 0x0B00EA4E#32 := by decide
/-- V98, V60. -/
theorem test_div :
    x5 0x027342b3#32 0xFFFFFFF9#32 2 = 0xFFFFFFFD#32 ∧ x5 0x027342b3#32 5 0 = 0x7FFFFFFF#32 := by
  decide
/-- V99, V61. -/
theorem test_divu :
    x5 0x027352b3#32 0xFFFFFFF9#32 2 = 0x7FFFFFFC#32 ∧ x5 0x027352b3#32 5 0 = 0xFFFFFFFF#32 := by
  decide
/-- V100, V62. -/
theorem test_rem :
    x5 0x027362b3#32 0xFFFFFFF9#32 2 = 0xFFFFFFFF#32 ∧ x5 0x027362b3#32 5 0 = 5 := by decide
/-- V101, V63. -/
theorem test_remu :
    x5 0x027372b3#32 0xFFFFFFF9#32 2 = 1 ∧ x5 0x027372b3#32 5 0 = 5 := by decide

/-- V102: no result under R8's default, which the start state has; the platform's value where it gives
one. -/
theorem test_div_rem_overflow :
    let s := st 0 [(6, 0x80000000#32), (7, 0xFFFFFFFF#32)]
    let v := { s with params := { s.params with
      divOverflow := .value 0x80000000#32, remOverflow := .value 0 } }
    exec (.div 5 6 7) s = .refused .divOverflow ∧ exec (.rem 5 6 7) s = .refused .remOverflow ∧
    (stateAfter v (exec (.div 5 6 7) v)).x 5 = 0x80000000#32 ∧
    (stateAfter v (exec (.rem 5 6 7) v)).pc = 4 := ⟨rfl, rfl, by decide, by decide⟩

/-! ## System and faults -/

/-- V123, V124: the bytes written, then the IndexFault, what is written staying written. -/
theorem test_ecall_writes :
    let t := stateAfter (st 0 []) (exec .ecall
      { st 0 [(17, 4), (10, 0xFFC#32), (11, 2)] with rom := Memory.setWord [] 1023 0x00048037#32 })
    (tick 0x00000073#32 (st 0 [(17, 2), (10, 0x12345641#32)])).events = [.writeByte 0x41] ∧
    t.events = [.writeByte 0x48] ∧ t.status = .faulted (.indexFault .rom 1024) := by decide
/-- S4; P6 on the byte `0x41`. -/
theorem test_ecall_exits_and_reads :
    let t := tick 0x00000073#32 ((st 0 [(17, 1)]).hostSupply 0x41)
    (tick 0x00000073#32 (st 0 [(17, 10), (10, 42)])).status = .exited 42 ∧
    t.x 10 = 0x41#32 ∧ t.hostInput = [] := by decide
/-- V111, F6. -/
theorem test_ebreak :
    (tick 0x02000073#32 (st 0 [])).pc = 4 ∧ (tick 0x02000073#32 (st 0 [])).events = [] := by decide
/-- F3, F11: the fetch past the program and past the ROM. -/
theorem test_fetch_faults :
    ending [] (st 0 []) = .faulted (.decodeFault 0) ∧
    ending [] { st 4 [] with params := { Config.resetParams with romWords := 1 } } =
      .faulted (.indexFault .rom 1) := by decide

/-! ## Witnesses: for each obligation with hypotheses, something that meets them all

A statement of several clauses has one at a boundary value of each. -/

/-- The word is stored at the program counter of a state. -/
def holding (w : Word) (s : State) : State := s.withFetchWord 32 w.toNat

theorem witness_DecodeEncodeGivesBackEveryInstruction :
    ∀ i ∈ [Instr.addi 31 0 0x7FF#32, .lw 1 2 0xFFFFF800#32, .sw 1 2 0xFFFFF800#32,
      .beq 1 2 0xFFFFF000#32, .bgeu 1 2 0xFFE#32, .jal 1 0xFFF00000#32, .jal 1 0xFFFFE#32,
      .lui 1 0xFFFFF000#32, .srai 1 2 31, .remu 31 31 31, .ebreak], i.wf = true := by decide

theorem witness_DecodedInstructionIsWellFormed :
    decodeWord 0x80730063#32 = .ok (.beq 6 7 0xFFFFF000#32) := by decide

theorem witness_DecoderFollowsTheOpcodeTable :
    decodeWord 0x007302b3#32 = .ok (.add 5 6 7) ∧
    ((Instr.add 0 0 0).row ∈ opcodeTable ∧ (Instr.add 0 0 0).row.Matches 0x007302b3#32) ∧
    ∀ r ∈ opcodeTable, ¬ r.Matches 0x0ff0000f#32 := by decide

theorem witness_UnmatchedWordIsADecodeFault :
    ((st 0xFFC#32 []).Ready ∧ wordIndex (st 0xFFC#32 []).pc < (st 0xFFC#32 []).params.romWords ∧
      ∀ r ∈ opcodeTable,
        ¬ r.Matches ((st 0xFFC#32 []).rom.wordAt (wordIndex (st 0xFFC#32 []).pc))) ∧
    (0x00000002#32).extractLsb' 0 2 ≠ 0b11#2 ∧ opcodeOf 0x0ff0000f#32 = 0b0001111#7 ∧
    opcodeOf 0x00000053#32 = 0b1010011#7 ∧
    (opcodeOf 0x04000033#32 = 0b0110011#7 ∧
      funct7Of 0x04000033#32 ∉ [0b0000000#7, 0b0100000#7, 0b0000001#7]) ∧
    (funct7Of 0x40001033#32 = 0b0100000#7 ∧ funct3Of 0x40001033#32 ∉ [0b000#3, 0b101#3]) ∧
    (opcodeOf 0x80005013#32 = 0b0010011#7 ∧ funct3Of 0x80005013#32 = 0b101#3 ∧
      funct7Of 0x80005013#32 ∉ [0b0000000#7, 0b0100000#7]) ∧
    (opcodeOf 0x00002063#32 = 0b1100011#7 ∧ funct3Of 0x00002063#32 ∈ [0b010#3, 0b011#3]) ∧
    (opcodeOf 0x00003003#32 = 0b0000011#7 ∧
      funct3Of 0x00003003#32 ∈ [0b011#3, 0b110#3, 0b111#3]) ∧
    (opcodeOf 0x00003023#32 = 0b0100011#7 ∧ 0b011#3 ≤ funct3Of 0x00003023#32) ∧
    (opcodeOf 0x04000073#32 = 0b1110011#7 ∧
      funct7Of 0x04000073#32 ∉ [0b0000000#7, 0b0000001#7]) := by decide

theorem witness_StepRunsTheDecodedInstruction :
    let s := holding 0x002081b3#32 (st 0xFFC#32 [])
    s.Ready ∧ wordIndex s.pc < s.params.romWords ∧
    decode [s.rom.byteAt (4 * wordIndex s.pc), s.rom.byteAt (4 * wordIndex s.pc + 1),
      s.rom.byteAt (4 * wordIndex s.pc + 2), s.rom.byteAt (4 * wordIndex s.pc + 3)] =
      .ok (.add 3 1 2, []) := by decide

theorem witness_StepTakesTheFirstFetchFault :
    ((st 0x1000#32 []).Ready ∧
      (st 0x1000#32 []).params.romWords ≤ (st 0x1000#32 []).pc.toNat / 4) ∧
    ((st 0xFFC#32 []).Ready ∧
      (st 0xFFC#32 []).pc.toNat / 4 < (st 0xFFC#32 []).params.romWords ∧
      decodeWord ((st 0xFFC#32 []).rom.wordAt ((st 0xFFC#32 []).pc.toNat / 4)) =
        .error .opcode) := by decide

theorem witness_IdleTickOnlyCountsDown :
    ∀ b ∈ [(1 : Fin 3), 2], State.Live { st 8 [] with bubble := b } ∧
      State.bubble { st 8 [] with bubble := b } ≠ 0 := by decide

theorem witness_RedirectingInstructionsStartTheBubble :
    (exec (.beq 1 2 0) (st 0 []) = .next (stateAfter (st 0 []) (exec (.beq 1 2 0) (st 0 []))) ∧
      (stateAfter (st 0 []) (exec (.beq 1 2 0) (st 0 []))).status = (st 0 []).status ∧
      (st 0 []).Live ∧ Redirecting (.beq 1 2 0) (st 0 [])) ∧
    (exec (.bne 1 2 4) (st 0 []) = .next (stateAfter (st 0 []) (exec (.bne 1 2 4) (st 0 []))) ∧
      (stateAfter (st 0 []) (exec (.bne 1 2 4) (st 0 []))).status = (st 0 []).status ∧
      ¬ Redirecting (.bne 1 2 4) (st 0 [])) := by
  refine ⟨⟨eq_next _ (by decide), by decide, by decide, ?_⟩, eq_next _ (by decide), by decide, ?_⟩
  · show (st 0 []).x 1 = (st 0 []).x 2
    decide
  · show ¬ (st 0 []).x 1 ≠ (st 0 []).x 2
    decide

theorem witness_RedirectIsFollowedByTwoIdleTicks :
    let s := holding 0x0000006f#32 (st 0 [])
    let t := stateAfter s (step s)
    s.Ready ∧ step s = .next t ∧ t.Live ∧ t.bubble ≠ 0 :=
  ⟨by decide, eq_next _ (by decide), by decide, by decide⟩

theorem witness_EndedRunTakesNoTick :
    State.status { st 0 [] with status := .faulted (.decodeFault 0) } = .faulted (.decodeFault 0) ∧
    State.status { st 0 [] with status := .exited 42 } = .exited 42 := by decide

/-- R8's other setting, at the free values. -/
theorem witness_LiveStepAlwaysAnswers :
    let s := State.boot Config.runningParams []
    s.Live ∧ s.params.divOverflow ≠ .refuse ∧ s.params.remOverflow ≠ .refuse :=
  ⟨rfl, OpenResult.noConfusion, OpenResult.noConfusion⟩

theorem witness_RunEndsByExitOnlyThroughServiceTen :
    let s := holding 0x00100073#32 (st 0 [(17, 10), (10, 3)])
    s.Live ∧ step s = .next (stateAfter s (step s)) ∧
    (stateAfter s (step s)).status = .exited 3 ∧
    s.bubble = 0 ∧ fetchInstr s = .ok .ecall ∧ s.x 17 = 10 :=
  ⟨by decide, eq_next _ (by decide), by decide, by decide, by decide, by decide⟩

/-- One state for each of the five causes: F11, F3, F1, F4, V124. -/
theorem witness_FaultsHaveOnlyTheThreeCauses :
    ∀ p ∈ [(st 0x1000#32 [], FaultRecord.indexFault .rom 1024), (st 0 [], .decodeFault 0),
        (holding 0x0060006f#32 (st 0 []), .alignmentFault 6),
        (holding 0x00042283#32 (st 0 [(8, 0x00400000#32)]), .indexFault .ram 1048576),
        (holding 0x00000073#32 (st 0 [(17, 4), (10, 0x1000#32), (11, 1)]), .indexFault .rom 1024)],
      State.Live p.1 ∧ isNext (step p.1) = true ∧
        (stateAfter p.1 (step p.1)).status = .faulted p.2 := by decide

theorem witness_FaultingInstructionCommitsNothing :
    let s := st 0 [(17, 4), (10, 0x1000#32), (11, 1)]
    s.Live ∧ exec .ecall s = .next (stateAfter s (exec .ecall s)) ∧
    (stateAfter s (exec .ecall s)).status = .faulted (.indexFault .rom 1024) ∧
    exec (.jal 1 6) s = .next (stateAfter s (exec (.jal 1 6) s)) ∧
    (stateAfter s (exec (.jal 1 6) s)).status = .faulted (.alignmentFault 6) :=
  ⟨by decide, eq_next _ (by decide), by decide, eq_next _ (by decide), by decide⟩

/-- A run of one instruction, one that stops with a fault, one that is refused. -/
theorem witness_InstructionLevelViewAgrees :
    let s := holding 0x0000006f#32 (st 0 [])
    let e := { st 0 [] with status := .exited 0 }
    let r := holding 0x027342b3#32 (st 0 [(6, 0x80000000#32), (7, 0xFFFFFFFF#32)])
    (s.bubble = 0 ∧ instrCore.run 1 s = .next (stateAfter s (instrStep s))) ∧
    (e.bubble = 0 ∧ instrCore.run 1 e = .fault (.exited 0)) ∧
    (r.bubble = 0 ∧ instrCore.run 1 r = .refused .divOverflow) := by
  refine ⟨⟨by decide, ?_⟩, ⟨by decide, rfl⟩, ⟨by decide, ?_⟩⟩
  · rw [instrCore_run_succ, eq_next (holding 0x0000006f#32 (st 0 [])) (o := instrStep _) (by decide)]
    rfl
  · rw [instrCore_run_succ]
    rfl

theorem witness_BootGivesEveryStateItsResetValue :
    [0x00100093#32].length ≤ ({ Config.resetParams with romWords := 1 } : Params).romWords := by decide

/-- The longest image of a ROM of one word. -/
theorem witness_ResetSatisfiesTheInvariant :
    let p := { Config.resetParams with romWords := 1 }
    Params.Valid p ∧ [0x00100093#32].length ≤ p.romWords := by decide

theorem witness_StepKeepsTheInvariant :
    let s := holding 0x00502023#32 { State.reset with regs := (st 0 [(5, 7)]).regs }
    s.Inv ∧ step s = .next (stateAfter s (step s)) ∧ (stateAfter s (step s)).ram = [(0, 7)] :=
  ⟨by decide, eq_next _ (by decide), by decide⟩

theorem witness_RegisterZeroReadsZero :
    core.run 1 (holding 0x00500013#32 (st 0 [])) =
      .next (stateAfter (st 0 []) (step (holding 0x00500013#32 (st 0 [])))) := by
  rw [core_run_succ, eq_next (st 0 []) (o := step _) (by decide)]
  rfl

theorem witness_RegisterWriteThenRead :
    Effects.rdWrite { rdWrite := some (31, 7) } = some (31, 7) ∧
    Effects.rdWrite { pcLoad := some 4 } = none := by decide

theorem witness_MemoryWriteThenRead :
    Memory.wf [(0, 1), (3, 0xFF), (4, 2)] = true ∧ 3 / 4 ≠ 1 ∧ 8 / 4 ≠ 1 := by decide

theorem witness_CanonicalMemoriesAreEqualWhenTheyReadEqual :
    Memory.wf ([(0, 1), (7, 2)] : Memory) = true ∧
    Memory.wf (Memory.setByte [(7, 2)] 0 1) = true ∧
    ∀ a, Memory.byteAt [(0, 1), (7, 2)] a = (Memory.setByte [(7, 2)] 0 1).byteAt a :=
  ⟨by decide, by decide, fun _ => rfl⟩

theorem witness_InstructionSpaceNeverChanges :
    core.run 1 (holding 0x00502023#32 (st 0 [(5, 7)])) =
      .next (stateAfter (st 0 []) (step (holding 0x00502023#32 (st 0 [(5, 7)])))) := by
  rw [core_run_succ, eq_next (st 0 []) (o := step _) (by decide)]
  rfl

/-- An instruction that advances, and an ECALL that waits. -/
theorem witness_OnlyControlTransfersLeaveTheSequence :
    (exec .ebreak (st 0 []) = .next (stateAfter (st 0 []) (exec .ebreak (st 0 []))) ∧
      (stateAfter (st 0 []) (exec .ebreak (st 0 []))).status = (st 0 []).status ∧
      (st 0 []).Live ∧ loadsPc .ebreak = false) ∧
    (exec .ecall (st 0 [(17, 1)]) = .next (st 0 [(17, 1)]) ∧ (st 0 [(17, 1)]).Live ∧
      loadsPc .ecall = false) :=
  ⟨⟨rfl, by decide, by decide, rfl⟩, rfl, by decide, rfl⟩

/-- A load; a store into the last word below the window, one into the window's first word, one past a
smaller RAM. -/
theorem witness_OnlyStoresWriteRam :
    (exec (.lw 5 0 0) (st 0 []) = .next (stateAfter (st 0 []) (exec (.lw 5 0 0) (st 0 []))) ∧
      isStore (.lw 5 0 0) = false) ∧
    (let s := { st 0 [(6, 0x00400000#32)] with params := Config.resetParams }
     (exec (.sb 6 5 0xFFFFFFFF#32) s = .next (stateAfter s (exec (.sb 6 5 0xFFFFFFFF#32) s)) ∧
       0 / 4 ≠ (effectiveAddress 6 0xFFFFFFFF#32 s).toNat / 4) ∧
     (exec (.sb 6 5 0) s = .next (stateAfter s (exec (.sb 6 5 0) s)) ∧
       0x00400000 ≤ (effectiveAddress 6 0 s).toNat)) ∧
    (let s := st 0 [(6, 0x1000#32)]
     exec (.sb 6 5 0) s = .next (stateAfter s (exec (.sb 6 5 0) s)) ∧
       s.params.ramWords ≤ (effectiveAddress 6 0 s).toNat / 4) :=
  ⟨⟨eq_next _ (by decide), rfl⟩, ⟨⟨eq_next _ (by decide), by decide⟩, eq_next _ (by decide),
    by decide⟩, eq_next _ (by decide), by decide⟩

theorem witness_EventsOnlyGrow :
    let s := st 0 [(6, 0x00400000#32), (17, 2)]
    (exec (.sw 6 5 0) s = .next (stateAfter s (exec (.sw 6 5 0) s)) ∧ isStore (.sw 6 5 0) = true) ∧
    exec .ecall s = .next (stateAfter s (exec .ecall s)) ∧
    (exec .ebreak s = .next (stateAfter s (exec .ebreak s)) ∧ isStore .ebreak = false) :=
  ⟨⟨eq_next _ (by decide), rfl⟩, eq_next _ (by decide), rfl, rfl⟩

theorem witness_HostInputReachesOnlyEcall :
    let s := st 0 [(6, 0x80000000#32), (7, 0xFFFFFFFF#32)]
    (Instr.sub 5 6 7 ≠ .ecall ∧ exec (.sub 5 6 7) s = .next (stateAfter s (exec (.sub 5 6 7) s))) ∧
    (Instr.div 5 6 7 ≠ .ecall ∧ exec (.div 5 6 7) s = .refused .divOverflow) := by
  refine ⟨⟨by decide, rfl⟩, by decide, ?_⟩
  rfl

theorem witness_WithFetchWordRunsThatWord :
    State.reset.rom.wf = true ∧ decodeWord 0x00000073#32 = .ok .ecall := by decide

/-- For the EncodedBy clauses of LuiWritesTheUpperImmediate, AuipcJumpsAndWritesNoRegister,
JalLinksAndJumps, JalrLinksAndJumps, BranchWordsDecode, LoadAndStoreWordsDecode,
ImmediateArithmeticAndLogic, SltiuComparesWithTheSignExtendedImmediate, ImmediateShifts,
RegisterArithmeticAndLogic, RegisterComparisonsAndShifts, MultiplyLowAndHigh,
UnsignedDivideAndRemainder, SignedDivideAndRemainderByZero, EcallReadsAByte and EbreakDoesNothing: for
each row a word with zeros, and one with ones, in every bit the row does not fix. -/
theorem witness_EncodedBy :
    ∀ r ∈ opcodeTable,
      r.value &&& r.mask = r.value ∧ (r.value ||| ~~~r.mask) &&& r.mask = r.value := by decide

theorem witness_AuipcJumpsAndWritesNoRegister :
    ((st 8 []).pc + 0x1000#32).toNat % 4 = 0 ∧ aligned 0xFFFFFFFC#32 = true ∧
    fitsU 0xFFFFF000#32 = true := by decide

theorem witness_JalLinksAndJumps :
    ((st 8 []).pc + 0xFFFFFFF8#32).toNat % 4 = 0 ∧ ((st 8 []).pc + 2).toNat % 4 ≠ 0 := by decide

/-- V15, V16. -/
theorem witness_JalrLinksAndJumps :
    ((st 4 [(5, 9)]).x 5 + 0).getLsbD 1 = false ∧ ((st 4 [(5, 10)]).x 5 + 1).getLsbD 1 = true := by
  decide

/-- Each condition true and false, at the ends of its range. -/
theorem witness_BranchesGoWhereTheirConditionSays :
    let s := st 8 [(6, 0x80000000#32), (7, 0x7FFFFFFF#32)]
    (s.pc + 8).toNat % 4 = 0 ∧ s.x 6 ≠ s.x 7 ∧ s.x 6 = s.x 6 ∧
    (s.x 6).toInt < (s.x 7).toInt ∧ ¬ (s.x 6).toInt < (s.x 6).toInt ∧
    (s.x 6).toInt ≤ (s.x 6).toInt ∧ ¬ (s.x 7).toInt ≤ (s.x 6).toInt ∧
    (s.x 7).toNat < (s.x 6).toNat ∧ ¬ (s.x 6).toNat < (s.x 6).toNat ∧
    (s.x 6).toNat ≤ (s.x 6).toNat ∧ ¬ (s.x 6).toNat ≤ (s.x 7).toNat := by decide

theorem witness_BranchesFaultOnAMisalignedTarget : ((st 4 []).pc + 6).toNat % 4 ≠ 0 := by decide

/-- The last word of RAM, and the first past it. -/
theorem witness_LoadsReadTheWholeWord :
    ((st 0 [(6, 0xFFF#32)]).x 6 + 0).toNat / 4 < (st 0 [(6, 0xFFF#32)]).params.ramWords := by decide

theorem witness_LoadsPastRamFault :
    (st 0 [(6, 0x1000#32)]).params.ramWords ≤ ((st 0 [(6, 0x1000#32)]).x 6 + 0).toNat / 4 := by
  decide

/-- The last byte below the window, in a RAM of the largest size, with STORE_CLOBBERS_RD false and
true. -/
theorem witness_StoresReplaceTheWholeRamWord :
    ∀ c ∈ [false, true],
      let s := { st 0 [(6, 0x00400000#32)] with
        params := { Config.resetParams with storeClobbersRd := c } }
      s.ram.wf = true ∧ (effectiveAddress 6 0xFFFFFFFF#32 s).toNat < 0x00400000 ∧
      (effectiveAddress 6 0xFFFFFFFF#32 s).toNat / 4 < s.params.ramWords ∧
      s.params.storeClobbersRd = c := by decide

/-- The first and the last byte of the window. -/
theorem witness_StoresToTheVideoWindow :
    0x00400000 ≤ ((st 0 [(6, 0x00400000#32)]).x 6 + 0).toNat ∧
    0x00400000 ≤ ((st 0 []).x 0 + 0xFFFFFFFF#32).toNat := by decide

/-- The first word past RAM, and the last below the window. -/
theorem witness_StoresPastRamFault :
    let s := st 0 [(6, 0x1000#32), (7, 0x003FFFFF#32)]
    ((s.x 6 + 0).toNat < 0x00400000 ∧ s.params.ramWords ≤ (s.x 6 + 0).toNat / 4) ∧
    ((s.x 7 + 0).toNat < 0x00400000 ∧ s.params.ramWords ≤ (s.x 7 + 0).toNat / 4) := by decide

theorem witness_LoadSeesTheStoreBeforeIt :
    let s := st 0 [(6, 0xFFF#32), (7, 9)]
    let t := stateAfter s (exec (.sb 6 7 0) s)
    s.ram.wf = true ∧ (s.x 6 + 0).toNat < 0x00400000 ∧ (s.x 6 + 0).toNat / 4 < s.params.ramWords ∧
    exec (.sb 6 7 0) s = .next t ∧
    (t.x 0 + 0xFFC#32).toNat / 4 = (s.x 6 + 0).toNat / 4 :=
  ⟨by decide, by decide, by decide, eq_next _ (by decide), by decide⟩

theorem witness_SignedDivideAndRemainderByZero : (st 0 [(6, 5)]).x 7 = 0 := by decide

/-- 0x80000000 by 1, the operands next to the excluded pair. -/
theorem witness_SignedDivisionLaw :
    let s := st 0 [(6, 0x80000000#32), (7, 1)]
    s.x 7 ≠ 0 ∧ ¬ (s.x 6 = 0x80000000#32 ∧ s.x 7 = 0xFFFFFFFF#32) := by decide

/-- Each setting of the two parameters. -/
theorem witness_SignedOverflowFollowsItsParameter :
    ∀ o ∈ [OpenResult.refuse, .value 0x80000000#32],
      let s := { st 0 [(6, 0x80000000#32), (7, 0xFFFFFFFF#32)] with
        params := { Config.resetParams with divOverflow := o, remOverflow := o } }
      s.x 6 = 0x80000000#32 ∧ s.x 7 = 0xFFFFFFFF#32 ∧ s.params.divOverflow = o ∧
      s.params.remOverflow = o := by decide

/-- A byte ready, none yet, and the input's end. -/
theorem witness_EcallReadsAByte :
    ((st 0 [(17, 1)]).hostSupply 0xFF).x 17 = 1 ∧
    ((st 0 [(17, 1)]).hostSupply 0xFF).hostInput = 0xFF :: [] ∧
    ((st 0 [(17, 1)]).hostInput = [] ∧ (st 0 [(17, 1)]).hostInputEnded = false) ∧
    ((st 0 [(17, 1)]).hostEndInput.hostInput = [] ∧
      (st 0 [(17, 1)]).hostEndInput.hostInputEnded = true) := by decide

theorem witness_EcallWritesTheLowByte : (st 0 [(17, 2)]).x 17 = 2 := by decide

/-- No word; words up to the last of the ROM; one more; none inside. -/
theorem witness_EcallWritesPackedRomBytes :
    (st 0 [(17, 4)]).x 17 = 4 ∧ ((st 0 [(17, 4)]).x 11).toNat = 0 ∧
    ((st 0 [(10, 0xFFC#32), (11, 1)]).x 10).toNat / 4 + ((st 0 [(10, 0xFFC#32), (11, 1)]).x 11).toNat ≤
      (st 0 []).params.romWords ∧
    (((st 0 [(10, 0xFFC#32), (11, 2)]).x 11).toNat ≠ 0 ∧ (st 0 []).params.romWords <
      ((st 0 [(10, 0xFFC#32), (11, 2)]).x 10).toNat / 4 +
        ((st 0 [(10, 0xFFC#32), (11, 2)]).x 11).toNat) := by decide

theorem witness_EcallExits : (st 0 [(17, 10)]).x 17 = 10 := by decide

/-- V122: a number next to the services, and one whose low byte is a service. -/
theorem witness_EcallOtherServicesDoNothing :
    let s := st 0 [(17, 3)]
    let t := st 0 [(17, 0x10A#32)]
    (s.x 17 ≠ 1 ∧ s.x 17 ≠ 2 ∧ s.x 17 ≠ 4 ∧ s.x 17 ≠ 10) ∧
    (t.x 17 ≠ 1 ∧ t.x 17 ≠ 2 ∧ t.x 17 ≠ 4 ∧ t.x 17 ≠ 10) := by decide

end Sys2Proof.Tests
end

/-! The proofs of the family of spec/10_state.md: what a commit, an instruction and a step do to the
program counter, the registers and the memories, and the state a program starts in. -/

namespace Sys2Proof.Machine

/-! ## What a commit does -/

theorem commit_pc_of_pcLoad_none {e : Effects} (s : State) (h : e.pcLoad = none) :
    (commit e s).pc = s.pc + 4 := by
  simp [h]

theorem commit_pc_of_pcLoad_some {e : Effects} {target : Word} (s : State)
    (h : e.pcLoad = some target) : (commit e s).pc = target := by
  simp [h]

theorem commit_ram_of_ramWrite_none {e : Effects} (s : State) (h : e.ramWrite = none) :
    (commit e s).ram = s.ram := by
  simp [h]

/-- A staged RAM write inside the array lists nothing outside it. -/
theorem below_commitRam {n : Nat} {m : Memory} {write : Option (Nat × Word)}
    (hwrite : ∀ i v, write = some (i, v) → i < n) (hm : m.below (4 * n) = true) :
    (commitRam write m).below (4 * n) = true := by
  rcases write with _ | ⟨i, v⟩
  · exact hm
  · exact below_setWord (hwrite i v rfl) hm

/-- The program counter stays aligned when what is loaded into it is aligned, or is the default. -/
theorem aligned_commit_pc {e : Effects} {s : State}
    (hload : ∀ t, e.pcLoad = some t → aligned t = true ∨ t = s.pc + 4)
    (hpc : aligned s.pc = true) : aligned (commit e s).pc = true := by
  cases hl : e.pcLoad with
  | none =>
    rw [commit_pc_of_pcLoad_none s hl]
    exact aligned_add_four hpc
  | some target =>
    rw [commit_pc_of_pcLoad_some s hl]
    rcases hload target hl with ht | ht
    · exact ht
    · exact ht ▸ aligned_add_four hpc

/-- A commit keeps the invariant when its RAM write is inside the array and its PC-load is aligned. -/
theorem commit_keeps_inv {e : Effects} {s : State}
    (hwrite : ∀ i v, e.ramWrite = some (i, v) → i < s.params.ramWords)
    (hload : ∀ t, e.pcLoad = some t → aligned t = true ∨ t = s.pc + 4)
    (hs : s.Inv) : (commit e s).Inv := by
  obtain ⟨hpc, hram, hramBelow, hrest⟩ := hs
  exact ⟨aligned_commit_pc hload hpc, wf_commitRam _ hram, below_commitRam hwrite hramBelow, hrest⟩

/-! ## What ECALL does -/

/-- No service writes a memory or changes the parameters. -/
theorem ecall_next_keeps {s t : State} (h : exec .ecall s = .next t) :
    t.ram = s.ram ∧ t.rom = s.rom ∧ t.params = s.params := by
  rcases ecall_next_cases h with ⟨-, b, rest, -, rfl⟩ | ⟨-, -, -, rfl⟩ | ⟨-, -, -, rfl⟩ |
    ⟨bytes, rfl⟩ | ⟨-, bytes, f, rfl⟩ | ⟨-, rfl⟩ <;> exact ⟨rfl, rfl, rfl⟩

/-- A service advances `pc` by 4, or leaves it where it is because the run ended or the tick waits
for the host (spec/47_system.md R262, R263). -/
theorem ecall_next_pc {s t : State} (h : exec .ecall s = .next t) :
    t.pc = s.pc + 4 ∨ (t.pc = s.pc ∧ t.status ≠ .running) ∨
      (s.x regA7 = 1 ∧ s.hostInput = [] ∧ s.hostInputEnded = false ∧ t = s) := by
  rcases ecall_next_cases h with ⟨-, b, rest, -, rfl⟩ | ⟨-, -, -, rfl⟩ | hwait |
    ⟨bytes, rfl⟩ | ⟨-, bytes, f, rfl⟩ | ⟨-, rfl⟩
  · exact .inl rfl
  · exact .inl rfl
  · exact .inr (.inr hwait)
  · exact .inl rfl
  · exact .inr (.inl ⟨rfl, Status.noConfusion⟩)
  · exact .inr (.inl ⟨rfl, Status.noConfusion⟩)

theorem ecall_keeps_inv {s t : State} (hs : s.Inv) (h : exec .ecall s = .next t) : t.Inv := by
  obtain ⟨hram, hrom, hparams⟩ := ecall_next_keeps h
  obtain ⟨hpc, hmem⟩ := hs
  rw [State.Inv, hram, hrom, hparams]
  refine ⟨?_, hmem⟩
  rcases ecall_next_pc h with hadv | ⟨hstay, -⟩ | ⟨-, -, -, rfl⟩
  · exact hadv ▸ aligned_add_four hpc
  · exact hstay ▸ hpc
  · exact hpc

/-! ## Every step keeps the invariant -/

theorem exec_keeps_inv {i : Instr} {s t : State} (hs : s.Inv) (h : exec i s = .next t) :
    t.Inv := by
  by_cases hi : i = .ecall
  · subst hi
    exact ecall_keeps_inv hs h
  · rcases exec_next_cases hi h with ⟨e, hsound, rfl⟩ | ⟨f, rfl⟩
    · exact commit_keeps_inv hsound.ram (fun target ht => (hsound.pc target ht).2) hs
    · exact hs

/-- Settles O20: an idle tick and a fault at the fetch touch no part of the invariant, and an executed
instruction keeps it. -/
theorem stepKeepsTheInvariant : Obligations.StepKeepsTheInvariant := by
  intro s t hs h
  obtain ⟨-, ⟨-, rfl⟩ | ⟨-, f, -, rfl⟩ | ⟨-, i, -, hexec⟩⟩ := step_next_cases h
  · exact hs
  · exact hs
  · exact exec_keeps_inv hs hexec

/-! ## A loaded image -/

/-- Loading words leaves every word before and after them alone. -/
theorem wordAt_setWords_of_outside {i j : Nat} {ws : List Word} (m : Memory)
    (h : j < i ∨ i + ws.length ≤ j) : (m.setWords i ws).wordAt j = m.wordAt j := by
  induction ws generalizing m i with
  | nil => rfl
  | cons w ws ih =>
    rw [List.length_cons] at h
    rw [Memory.setWords, ih _ (by omega), wordAt_setWord_of_ne w m (by omega)]

/-- A read after loading words answers the word loaded there. -/
theorem wordAt_setWords_getElem {i k : Nat} {ws : List Word} {m : Memory} (hm : m.wf = true)
    (hk : k < ws.length) : (m.setWords i ws).wordAt (i + k) = ws[k] := by
  induction ws generalizing m i k with
  | nil => exact absurd hk (Nat.not_lt_zero k)
  | cons w ws ih =>
    rw [Memory.setWords]
    cases k with
    | zero =>
      rw [wordAt_setWords_of_outside _ (.inl (by omega))]
      exact wordAt_setWord_self i w hm
    | succ k =>
      rw [show i + (k + 1) = i + 1 + k by omega]
      exact ih (wf_setWord i w hm) (Nat.lt_of_succ_lt_succ hk)

theorem romWord_of_lt {s : State} {i : Nat} (h : i < s.params.romWords) :
    romWord s i = .ok (s.rom.wordAt i) := if_pos h

/-! ## The state a program starts in -/

section
variable (p : Params) (image : List Word)

@[simp] theorem boot_pc : (State.boot p image).pc = 0 := rfl
@[simp] theorem boot_bubble : (State.boot p image).bubble = 0 := rfl
@[simp] theorem boot_status : (State.boot p image).status = .running := rfl
@[simp] theorem boot_params : (State.boot p image).params = p := rfl
@[simp] theorem boot_events : (State.boot p image).events = [] := rfl
@[simp] theorem boot_ram : (State.boot p image).ram = [] := rfl
@[simp] theorem boot_rom : (State.boot p image).rom = Memory.setWords [] 0 image := rfl

@[simp] theorem boot_x (r : RegIdx) : (State.boot p image).x r = 0 := by
  rcases r with ⟨_ | k, h⟩
  · rfl
  · exact Vector.getElem_replicate _

end

@[simp] theorem wordAt_nil (i : Nat) : Memory.wordAt [] i = 0 :=
  show wordOfBytes 0 0 0 0 = 0 by decide

theorem romWord_boot_image {p : Params} {image : List Word} (hfit : image.length ≤ p.romWords)
    {i : Nat} (hi : i < image.length) : romWord (State.boot p image) i = .ok image[i] := by
  have hword := wordAt_setWords_getElem (i := 0) (m := []) rfl hi
  rw [Nat.zero_add] at hword
  rw [romWord_of_lt (hi.trans_le hfit), boot_rom, hword]

theorem romWord_boot_past_image {p : Params} {image : List Word} {i : Nat}
    (hpast : image.length ≤ i) (hi : i < p.romWords) : romWord (State.boot p image) i = .ok 0 := by
  rw [romWord_of_lt hi, boot_rom, wordAt_setWords_of_outside [] (.inr (by omega)), wordAt_nil]

/-- Settles O18: the ROM is read word by word, inside the image and past it; the other rows of R45's
table are the fields of the boot state. -/
theorem bootGivesEveryStateItsResetValue : Obligations.BootGivesEveryStateItsResetValue :=
  ⟨boot_resetParams_nil.symm, fun p image hfit =>
    ⟨boot_pc p image, boot_x p image, boot_bubble p image, boot_status p image,
      boot_params p image, boot_events p image, wordAt_nil,
      fun _ hi => romWord_boot_image hfit hi, fun _ hpast hi => romWord_boot_past_image hpast hi⟩⟩

theorem boot_inv {p : Params} {image : List Word} (hp : p.Valid)
    (hfit : image.length ≤ p.romWords) : (State.boot p image).Inv :=
  ⟨rfl, rfl, rfl, wf_setWords 0 image rfl, below_setWords (by simpa using hfit) rfl, hp⟩

theorem resetParams_valid : Config.resetParams.Valid := by decide

/-- Settles O19: `State.reset` is the boot state of the empty image, which fits every ROM. -/
theorem resetSatisfiesTheInvariant : Obligations.ResetSatisfiesTheInvariant :=
  ⟨boot_resetParams_nil ▸ boot_inv resetParams_valid (Nat.zero_le _), fun _ _ => boot_inv⟩

/-! ## Registers -/

theorem regsBut_commit {e : Effects} (s : State) {rd : RegIdx} {v : Word}
    (h : e.rdWrite = some (rd, v)) : RegsBut rd v s (commit e s) := by
  simp only [RegsBut, x_commit, h, commitRegs_some]
  exact ⟨readReg_writeReg_self s.regs rd v, fun _ hr => readReg_writeReg_of_ne s.regs v hr⟩

theorem sameRegs_commit {e : Effects} (s : State) (h : e.rdWrite = none) :
    SameRegs s (commit e s) := by
  intro r
  rw [x_commit, h, commitRegs_none, x_def]

/-- Settles O22, from the read-after-write laws of one register write. -/
theorem registerWriteThenRead : Obligations.RegisterWriteThenRead :=
  fun _ s => ⟨fun _ _ => regsBut_commit s, sameRegs_commit s⟩

/-- Settles O21: x0 has no storage, so a write to it changes no register and no run can change what it
reads. -/
theorem registerZeroReadsZero : Obligations.RegisterZeroReadsZero := by
  refine ⟨x_zero, fun s v r => ⟨?_, x_zero _⟩, fun _ _ t _ => x_zero t⟩
  rw [x_commit, commitRegs_some, writeReg_zero, x_def]

/-! ## The sequence of instructions -/

/-- An instruction other than ECALL that loads no PC and does not end the run advances `pc` by 4. -/
theorem exec_next_pc_of_not_loadsPc {i : Instr} {s t : State} (hi : i ≠ .ecall)
    (h : exec i s = .next t) (hlive : t.Live) (hl : loadsPc i = false) : t.pc = s.pc + 4 := by
  rcases exec_next_cases hi h with ⟨e, hsound, rfl⟩ | ⟨f, rfl⟩
  · have hload : e.pcLoad = none := Option.eq_none_iff_forall_ne_some.2 fun target ht =>
      absurd (hsound.pc target ht).1 (by simp [hl])
    exact commit_pc_of_pcLoad_none s hload
  · exact Status.noConfusion hlive

/-- Settles O26: the split is between ECALL, which can wait, and the rest. -/
theorem onlyControlTransfersLeaveTheSequence :
    Obligations.OnlyControlTransfersLeaveTheSequence := by
  intro i s t h hstatus hlive hl
  have htlive : t.Live := hstatus.trans hlive
  by_cases hi : i = .ecall
  · subst hi
    rcases ecall_next_pc h with hadv | ⟨-, hended⟩ | hwait
    · exact .inl hadv
    · exact absurd htlive hended
    · exact .inr ⟨rfl, hwait⟩
  · exact .inl (exec_next_pc_of_not_loadsPc hi h htlive hl)

/-! ## Who writes RAM -/

theorem exec_next_ram_of_not_store {i : Instr} {s t : State} (h : exec i s = .next t)
    (hstore : isStore i = false) : t.ram = s.ram := by
  by_cases hi : i = .ecall
  · subst hi
    exact (ecall_next_keeps h).1
  · rcases exec_next_cases hi h with ⟨e, hsound, rfl⟩ | ⟨f, rfl⟩
    · have hwrite : e.ramWrite = none := by
        by_contra hsome
        exact absurd (hsound.store (.inl hsome)) (by simp [hstore])
      exact commit_ram_of_ramWrite_none s hwrite
    · rfl

/-- A store writes RAM only at an address below the video window and inside the array, and there only
the addressed word (spec/20_memory.md R65). -/
theorem store_next_byteAt {rs1 rs2 : RegIdx} {imm : Word} {s t : State} {a : Nat}
    (h : store rs1 rs2 imm s = .next t)
    (ha : a / 4 ≠ (effectiveAddress rs1 imm s).toNat / 4 ∨
      0x00400000 ≤ (effectiveAddress rs1 imm s).toNat ∨
      s.params.ramWords ≤ (effectiveAddress rs1 imm s).toNat / 4) :
    t.ram.byteAt a = s.ram.byteAt a := by
  rcases store_cases rs1 rs2 imm s with ⟨-, hend⟩ | ⟨hbelow, hidx, hend⟩ | ⟨-, -, hend⟩
  · cases hend.symm.trans h
    rw [commit_ram_of_ramWrite_none s (clobberRd_ramWrite imm s _)]
  · cases hend.symm.trans h
    have hlt : (effectiveAddress rs1 imm s).toNat < 0x00400000 := hbelow
    rw [wordIndex_eq] at hidx
    have hne : a / 4 ≠ wordIndex (s.x rs1 + imm) := by
      rw [wordIndex_eq]
      rcases ha with hword | hwindow | hpast
      · exact hword
      · omega
      · exact absurd hidx (Nat.not_lt.2 hpast)
    rw [commit_ram, clobberRd_ramWrite, commitRam_some, byteAt_setWord_of_ne _ _ hne]
  · cases hend.symm.trans h
    rfl

/-- Settles O27: only a store stages a RAM write, and the three stores are one operation. -/
theorem onlyStoresWriteRam : Obligations.OnlyStoresWriteRam := by
  intro i s t h
  refine ⟨fun hstore a => by rw [exec_next_ram_of_not_store h hstore], ?_⟩
  intro rs1 rs2 imm hi a ha
  have hexec : store rs1 rs2 imm s = .next t := by
    simp only [List.mem_cons, List.not_mem_nil, or_false] at hi
    rcases hi with rfl | rfl | rfl <;> exact h
  exact store_next_byteAt hexec ha

/-! ## Ended runs -/

theorem step_of_faulted {s : State} {f : FaultRecord} (h : s.status = .faulted f) :
    step s = .fault (.faulted f) := by
  simp [step, h]

theorem step_of_exited {s : State} {c : Word} (h : s.status = .exited c) :
    step s = .fault (.exited c) := by
  simp [step, h]

/-- Settles O11: the status is the first thing a step looks at. -/
theorem endedRunTakesNoTick : Obligations.EndedRunTakesNoTick :=
  fun _ => ⟨fun _ => step_of_faulted, fun _ => step_of_exited⟩

end Sys2Proof.Machine

/-! The proofs of the family of spec/20_memory.md: memories in canonical form, what a run leaves of the
instruction space, the events an instruction makes, and where each load and store goes. -/

namespace Sys2Proof.Machine

/-! ## Memories in canonical form -/

/-- A canonical memory lists no address below its first one. -/
theorem le_of_byteAt_ne_zero {lo a : Nat} {m : Memory} (hm : Memory.wfFrom lo m = true)
    (h : m.byteAt a ≠ 0) : lo ≤ a :=
  Nat.not_lt.1 fun hlt => h (byteAt_eq_zero hm hlt)

@[simp] theorem byteAt_nil (a : Nat) : Memory.byteAt [] a = 0 := rfl

@[simp] theorem byteAt_cons_self (a : Nat) (b : Byte) (m : Memory) :
    Memory.byteAt ((a, b) :: m) a = b := if_pos rfl

theorem byteAt_cons_of_ne {a x : Nat} (b : Byte) (m : Memory) (h : a ≠ x) :
    Memory.byteAt ((a, b) :: m) x = m.byteAt x := if_neg h

/-- The least address that does not read 0 is the first one listed, so the cells of a canonical memory
are determined one by one by what it reads. -/
theorem eq_of_byteAt_eq {lo : Nat} {m m' : Memory} (hm : Memory.wfFrom lo m = true)
    (hm' : Memory.wfFrom lo m' = true) (h : ∀ a, m.byteAt a = m'.byteAt a) : m = m' := by
  induction m generalizing lo m' with
  | nil =>
    rcases m' with _ | ⟨⟨a', b'⟩, m'⟩
    · rfl
    · obtain ⟨-, hb', -⟩ := wfFrom_cons.1 hm'
      exact absurd (by simpa using (h a').symm) hb'
  | cons c m ih =>
    obtain ⟨a, b⟩ := c
    obtain ⟨-, hb, hrest⟩ := wfFrom_cons.1 hm
    have hread : Memory.byteAt m' a ≠ 0 := by rwa [← h a, byteAt_cons_self]
    rcases m' with _ | ⟨⟨a', b'⟩, m'⟩
    · exact absurd rfl hread
    · obtain ⟨-, hb', hrest'⟩ := wfFrom_cons.1 hm'
      have hread' : Memory.byteAt ((a, b) :: m) a' ≠ 0 := by rwa [h a', byteAt_cons_self]
      have haddr : a = a' := Nat.le_antisymm
        (le_of_byteAt_ne_zero (wfFrom_cons.2 ⟨le_rfl, hb, hrest⟩) hread')
        (le_of_byteAt_ne_zero (wfFrom_cons.2 ⟨le_rfl, hb', hrest'⟩) hread)
      subst haddr
      have hbyte : b = b' := by simpa using h a
      have htail : ∀ x, Memory.byteAt m x = Memory.byteAt m' x := by
        intro x
        by_cases hx : a = x
        · subst hx
          rw [byteAt_eq_zero hrest (Nat.lt_succ_self a), byteAt_eq_zero hrest' (Nat.lt_succ_self a)]
        · rw [← byteAt_cons_of_ne b m hx, h x, byteAt_cons_of_ne b' m' hx]
      rw [hbyte, ih hrest hrest' htail]

/-- Settles O24, by induction on the cells. -/
theorem canonicalMemoriesAreEqualWhenTheyReadEqual :
    Obligations.CanonicalMemoriesAreEqualWhenTheyReadEqual :=
  fun _ _ => eq_of_byteAt_eq

/-- Byte `k` of the word at index `i` is the byte at address `4 * i + k`. -/
theorem byteOfWord_wordAt (m : Memory) (i : Nat) {k : Nat} (hk : k < 4) :
    byteOfWord (m.wordAt i) k = m.byteAt (4 * i + k) := by
  interval_cases k
  · exact BitVec.extractLsb'_append_eq_right
  · exact (BitVec.extractLsb'_append_eq_of_le (by decide)).trans BitVec.extractLsb'_append_eq_right
  · exact (BitVec.extractLsb'_append_eq_of_le (by decide)).trans
      ((BitVec.extractLsb'_append_eq_of_le (by decide)).trans BitVec.extractLsb'_append_eq_right)
  · exact (BitVec.extractLsb'_append_eq_of_le (by decide)).trans
      ((BitVec.extractLsb'_append_eq_of_le (by decide)).trans BitVec.extractLsb'_append_eq_left)

theorem byteAt_setWord_add {m : Memory} (i : Nat) (w : Word) (hm : m.wf = true) {k : Nat}
    (hk : k < 4) : (m.setWord i w).byteAt (4 * i + k) = byteOfWord w k := by
  obtain ⟨h0, h1, h2, h3⟩ := byteAt_setWord_self i w hm
  interval_cases k
  · exact h0
  · exact h1
  · exact h2
  · exact h3

/-- Writing the word that is already there changes no byte, and so nothing at all. -/
theorem setWord_wordAt {m : Memory} (i : Nat) (hm : m.wf = true) : m.setWord i (m.wordAt i) = m := by
  refine eq_of_byteAt_eq (wf_setWord i _ hm) hm fun a => ?_
  by_cases ha : a / 4 = i
  · have hsplit : a = 4 * i + a % 4 := by omega
    have hk : a % 4 < 4 := Nat.mod_lt a (by decide)
    rw [hsplit, byteAt_setWord_add i _ hm hk, byteOfWord_wordAt m i hk]
  · exact byteAt_setWord_of_ne _ m ha

/-- Settles O23: reads after a write are the laws of memory, and writing back what is there is equality
of canonical memories. -/
theorem memoryWriteThenRead : Obligations.MemoryWriteThenRead :=
  fun m i w hm => ⟨wordAt_setWord_self i w hm, fun _ => byteAt_setWord_of_ne w m,
    wf_setWord i w hm, setWord_wordAt i hm⟩

/-! ## The instruction space -/

theorem exec_next_keeps_rom_params {i : Instr} {s t : State} (h : exec i s = .next t) :
    t.rom = s.rom ∧ t.params = s.params := by
  by_cases hi : i = .ecall
  · subst hi
    exact (ecall_next_keeps h).2
  · rcases exec_next_cases hi h with ⟨e, -, rfl⟩ | ⟨f, rfl⟩
    · exact ⟨commit_rom e s, commit_params e s⟩
    · exact ⟨rfl, rfl⟩

theorem step_next_keeps_rom_params {s t : State} (h : step s = .next t) :
    t.rom = s.rom ∧ t.params = s.params := by
  obtain ⟨-, ⟨-, rfl⟩ | ⟨-, f, -, rfl⟩ | ⟨-, i, -, hexec⟩⟩ := step_next_cases h
  · exact ⟨bubbleTick_rom s, bubbleTick_params s⟩
  · exact ⟨rfl, rfl⟩
  · exact exec_next_keeps_rom_params hexec

/-- What every step keeps, every run keeps. -/
theorem core_run_keeps {P : State → Prop} (hstep : ∀ {s t}, P s → step s = .next t → P t) {k : Nat}
    {s t : State} (hs : P s) (h : core.run k s = .next t) : P t := by
  induction k generalizing s with
  | zero =>
    cases h
    exact hs
  | succ k ih =>
    rw [core_run_succ] at h
    split at h
    next u hu => exact ih (hstep hs hu) h
    next => cases h
    next => cases h

/-- A ROM read depends on the ROM and on its size only. -/
theorem romRead_congr {s t : State} (hrom : t.rom = s.rom) (hparams : t.params = s.params)
    (addr : Word) : romRead t addr = romRead s addr := by
  rw [romRead, romRead, romWord, romWord, hrom, hparams]

/-- Settles O25: the ROM and the parameters are kept by every step, and so by every run. -/
theorem instructionSpaceNeverChanges : Obligations.InstructionSpaceNeverChanges := by
  intro k s t h
  have hstep {u v : State} (hu : u.rom = s.rom ∧ u.params = s.params) (hv : step u = .next v) :
      v.rom = s.rom ∧ v.params = s.params := by
    obtain ⟨hrom, hparams⟩ := step_next_keeps_rom_params hv
    exact ⟨hrom.trans hu.1, hparams.trans hu.2⟩
  obtain ⟨hrom, hparams⟩ := core_run_keeps hstep ⟨rfl, rfl⟩ h
  exact ⟨hrom, hparams, romRead_congr hrom hparams⟩

/-! ## The events an instruction makes -/

/-- ECALL calls the host only. -/
theorem ecall_next_events {s t : State} (h : exec .ecall s = .next t) :
    ∃ new : List Event, t.events = s.events ++ new ∧ ∀ c ∈ new, c.isVideo = false := by
  rcases ecall_next_cases h with ⟨-, b, rest, -, rfl⟩ | ⟨-, -, -, rfl⟩ | ⟨-, -, -, rfl⟩ |
    ⟨bytes, rfl⟩ | ⟨-, bytes, f, rfl⟩ | ⟨-, rfl⟩
  · exact ⟨_, rfl, by simp [Event.isVideo]⟩
  · exact ⟨_, rfl, by simp [Event.isVideo]⟩
  · exact ⟨[], (List.append_nil _).symm, by simp⟩
  · exact ⟨_, rfl, by simp [Event.isVideo]⟩
  · exact ⟨_, rfl, by simp [Event.isVideo]⟩
  · exact ⟨_, rfl, by simp [Event.isVideo]⟩

/-- An instruction other than ECALL calls the video collaborator only, and only if it is a store. -/
theorem exec_next_events {i : Instr} {s t : State} (hi : i ≠ .ecall) (h : exec i s = .next t) :
    ∃ new : List Event, t.events = s.events ++ new ∧ (isStore i = false → new = []) ∧
      ∀ c ∈ new, c.isVideo = true := by
  rcases exec_next_cases hi h with ⟨e, hsound, rfl⟩ | ⟨f, rfl⟩
  · refine ⟨e.calls, commit_events e s, fun hstore => ?_, hsound.calls⟩
    by_contra hcalls
    exact absurd (hsound.store (.inr hcalls)) (by simp [hstore])
  · exact ⟨[], (List.append_nil _).symm, fun _ => rfl, by simp⟩

/-- Settles O28: the split is between ECALL, which calls the host, and the rest. -/
theorem eventsOnlyGrow : Obligations.EventsOnlyGrow := by
  intro i s t h
  by_cases hi : i = .ecall
  · subst hi
    obtain ⟨new, hevents, hhost⟩ := ecall_next_events h
    exact ⟨new, hevents, fun hne => absurd rfl hne, Bool.noConfusion, fun _ => hhost⟩
  · obtain ⟨new, hevents, hnone, hvideo⟩ := exec_next_events hi h
    exact ⟨new, hevents, fun _ => hnone, fun _ => hvideo, fun heq => absurd heq hi⟩

/-! ## Where a load and a store go -/

/-- The five loads are one operation (spec/43_loads_and_stores.md R181). -/
theorem exec_eq_load_of_mem {i : Instr} {rd rs1 : RegIdx} {imm : Word}
    (hi : i ∈ [Instr.lb rd rs1 imm, .lh rd rs1 imm, .lw rd rs1 imm, .lbu rd rs1 imm,
      .lhu rd rs1 imm]) (s : State) : exec i s = load rd rs1 imm s := by
  simp only [List.mem_cons, List.not_mem_nil, or_false] at hi
  rcases hi with rfl | rfl | rfl | rfl | rfl <;> rfl

/-- The three stores are one operation (spec/43_loads_and_stores.md R181). -/
theorem exec_eq_store_of_mem {i : Instr} {rs1 rs2 : RegIdx} {imm : Word}
    (hi : i ∈ [Instr.sb rs1 rs2 imm, .sh rs1 rs2 imm, .sw rs1 rs2 imm]) (s : State) :
    exec i s = store rs1 rs2 imm s := by
  simp only [List.mem_cons, List.not_mem_nil, or_false] at hi
  rcases hi with rfl | rfl | rfl <;> rfl

section
variable {rd rs1 rs2 : RegIdx} {imm : Word} {s : State}

theorem load_in_ram (h : (s.x rs1 + imm).toNat / 4 < s.params.ramWords) :
    load rd rs1 imm s = writeBack rd (s.ram.wordAt ((s.x rs1 + imm).toNat / 4)) s := by
  rw [← wordIndex_eq] at h ⊢
  rcases load_cases rd rs1 imm s with ⟨-, hend⟩ | ⟨hpast, -⟩
  · exact hend
  · exact absurd h hpast.not_gt

theorem load_past_ram (h : s.params.ramWords ≤ (s.x rs1 + imm).toNat / 4) :
    load rd rs1 imm s = raiseFault (.indexFault .ram ((s.x rs1 + imm).toNat / 4)) s := by
  rw [← wordIndex_eq] at h ⊢
  rcases load_cases rd rs1 imm s with ⟨hidx, -⟩ | ⟨-, hend⟩
  · exact absurd hidx h.not_gt
  · exact hend

theorem videoBase_le_iff (addr : Word) : Config.videoBase ≤ addr ↔ 0x00400000 ≤ addr.toNat := Iff.rfl

theorem store_to_video (h : 0x00400000 ≤ (s.x rs1 + imm).toNat) :
    store rs1 rs2 imm s = .next (commit (clobberRd imm s
      { calls := [.video (s.x rs1 + imm - Config.videoBase) (s.x rs2)] }) s) := by
  rw [← videoBase_le_iff] at h
  rcases store_cases rs1 rs2 imm s with ⟨-, hend⟩ | ⟨hbelow, -⟩ | ⟨hbelow, -⟩
  · exact hend
  · exact absurd h (BitVec.not_le.2 hbelow)
  · exact absurd h (BitVec.not_le.2 hbelow)

theorem store_in_ram (hbelow : (s.x rs1 + imm).toNat < 0x00400000)
    (h : (s.x rs1 + imm).toNat / 4 < s.params.ramWords) :
    store rs1 rs2 imm s = .next (commit (clobberRd imm s
      { ramWrite := some ((s.x rs1 + imm).toNat / 4, s.x rs2) }) s) := by
  rw [← wordIndex_eq] at h ⊢
  rcases store_cases rs1 rs2 imm s with ⟨hvideo, -⟩ | ⟨-, -, hend⟩ | ⟨-, hpast, -⟩
  · exact absurd ((videoBase_le_iff _).1 hvideo) hbelow.not_ge
  · exact hend
  · exact absurd h hpast.not_gt

theorem store_past_ram (hbelow : (s.x rs1 + imm).toNat < 0x00400000)
    (h : s.params.ramWords ≤ (s.x rs1 + imm).toNat / 4) :
    store rs1 rs2 imm s = raiseFault (.indexFault .ram ((s.x rs1 + imm).toNat / 4)) s := by
  rw [← wordIndex_eq] at h ⊢
  rcases store_cases rs1 rs2 imm s with ⟨hvideo, -⟩ | ⟨-, hidx, -⟩ | ⟨-, -, hend⟩
  · exact absurd ((videoBase_le_iff _).1 hvideo) hbelow.not_ge
  · exact absurd hidx h.not_gt
  · exact hend

end

/-! ## Faults past the RAM -/

/-- A fault taken changes the status and nothing else (spec/60_exceptions.md R288). -/
theorem raiseFault_faults (f : FaultRecord) (s : State) :
    ∃ t, raiseFault f s = .next t ∧ Faults f s t :=
  ⟨_, raiseFault_eq f s, rfl, fun _ => rfl, rfl, rfl, ⟨fun _ => rfl, fun _ => rfl⟩,
    ⟨rfl, rfl, rfl, rfl⟩, rfl⟩

/-- Settles O40: the load's index is past the RAM, in the video window too. -/
theorem loadsPastRamFault : Obligations.LoadsPastRamFault := by
  intro rd rs1 imm s hpast i hi
  rw [exec_eq_load_of_mem hi, load_past_ram hpast]
  exact raiseFault_faults _ s

/-- Settles O43: below the video window only the RAM can answer, and the index is past it. -/
theorem storesPastRamFault : Obligations.StoresPastRamFault := by
  intro rs1 rs2 imm s hbelow hpast i hi
  rw [exec_eq_store_of_mem hi, store_past_ram hbelow hpast]
  exact raiseFault_faults _ s

/-! ## Stores to the video window -/

theorem storeRdField_val (imm : Word) : (storeRdField imm).val = imm.toNat % 32 := by
  simp [storeRdField, regOfBits]

theorem clobberRd_of_true (imm : Word) {s : State} (e : Effects)
    (h : s.params.storeClobbersRd = true) :
    clobberRd imm s e =
      { e with rdWrite := some (storeRdField imm, Config.clobber s.freeCount), freeDrawn := 1 } :=
  if_pos h

/-- A store that writes no register of its own does to the registers what STORE_CLOBBERS_RD says
(spec/43_loads_and_stores.md R191). -/
theorem storeRegs_commit_clobberRd (imm : Word) (s : State) {e : Effects}
    (hrd : e.rdWrite = none) (hfree : e.freeDrawn = 0) :
    StoreRegs imm s (commit (clobberRd imm s e) s) := by
  constructor
  · intro hfalse
    rw [clobberRd_of_false imm s e hfalse]
    exact ⟨sameRegs_commit s hrd, by rw [commit_freeCount, hfree, Nat.add_zero]⟩
  · intro htrue
    rw [clobberRd_of_true imm e htrue]
    refine ⟨⟨Config.clobber s.freeCount, fun rd hval => ?_⟩, rfl⟩
    have hfield : rd = storeRdField imm := Fin.ext (hval.trans (storeRdField_val imm).symm)
    exact regsBut_commit s (by rw [hfield])

/-- Settles O42: the store stages the video write and no RAM write. -/
theorem storesToTheVideoWindow : Obligations.StoresToTheVideoWindow := by
  intro rs1 rs2 imm s hwindow i hi
  refine ⟨_, (exec_eq_store_of_mem hi s).trans (store_to_video hwindow), ?_, ⟨?_, fun _ => rfl⟩,
    storeRegs_commit_clobberRd imm s rfl rfl, ?_, ?_, ⟨rfl, rfl⟩, rfl, rfl⟩
  · rw [commit_events, clobberRd_calls]
    rfl
  · intro a
    rw [commit_ram_of_ramWrite_none s (clobberRd_ramWrite imm s _)]
  · exact commit_pc_of_pcLoad_none s (clobberRd_pcLoad imm s _)
  · rw [commit_bubble, clobberRd_redirect]
    rfl

/-! ## A load after a store -/

theorem writeBack_next (rd : RegIdx) (v : Word) (s : State) :
    ∃ t, writeBack rd v s = .next t ∧ t.x rd = if rd = 0 then 0 else v :=
  ⟨_, writeBack_eq rd v s, (regsBut_commit s rfl).1⟩

/-- A completed store to RAM leaves the stored word at the addressed index, in a RAM of the same
size. -/
theorem store_in_ram_next {rs1 rs2 : RegIdx} {imm : Word} {s t : State} (hram : s.ram.wf = true)
    (hbelow : (s.x rs1 + imm).toNat < 0x00400000)
    (hidx : (s.x rs1 + imm).toNat / 4 < s.params.ramWords)
    (h : store rs1 rs2 imm s = .next t) :
    t.params = s.params ∧ t.ram.wordAt ((s.x rs1 + imm).toNat / 4) = s.x rs2 := by
  cases (store_in_ram hbelow hidx).symm.trans h
  rw [commit_ram, clobberRd_ramWrite, commitRam_some]
  exact ⟨rfl, wordAt_setWord_self _ _ hram⟩

/-- Settles O44: the load's index is the store's, so it is inside the RAM and reads the stored word. -/
theorem loadSeesTheStoreBeforeIt : Obligations.LoadSeesTheStoreBeforeIt := by
  intro rs1 rs2 imm s t hram hbelow hidx st hst hstore rd rs1' imm' hword ld hld
  rw [exec_eq_store_of_mem hst] at hstore
  obtain ⟨hparams, hread⟩ := store_in_ram_next hram hbelow hidx hstore
  have hidx' : (t.x rs1' + imm').toNat / 4 < t.params.ramWords := by rwa [hword, hparams]
  rw [exec_eq_load_of_mem hld, load_in_ram hidx', hword, hread]
  exact writeBack_next rd (s.x rs2) t

end Sys2Proof.Machine

/-! The proofs of the family of spec/30_encoding.md: the decoder as the inverse of the encoder, and as
the reader of the opcode table. -/

namespace Sys2Proof

open Sys2Proof.Laws

/-! ## The operands of a row's instruction -/

/-- The instruction of the same row as `i` with its operands read from the fields of the word
(spec/30_encoding.md R94, R102). -/
def Instr.readFrom (w : Word) : Instr → Instr
  | .lui _ _ => .lui (rdOf w) (immU w)
  | .auipc _ _ => .auipc (rdOf w) (immU w)
  | .jal _ _ => .jal (rdOf w) (immJ w)
  | .jalr _ _ _ => .jalr (rdOf w) (rs1Of w) (immI w)
  | .beq _ _ _ => .beq (rs1Of w) (rs2Of w) (immB w)
  | .bne _ _ _ => .bne (rs1Of w) (rs2Of w) (immB w)
  | .blt _ _ _ => .blt (rs1Of w) (rs2Of w) (immB w)
  | .bge _ _ _ => .bge (rs1Of w) (rs2Of w) (immB w)
  | .bltu _ _ _ => .bltu (rs1Of w) (rs2Of w) (immB w)
  | .bgeu _ _ _ => .bgeu (rs1Of w) (rs2Of w) (immB w)
  | .lb _ _ _ => .lb (rdOf w) (rs1Of w) (immI w)
  | .lh _ _ _ => .lh (rdOf w) (rs1Of w) (immI w)
  | .lw _ _ _ => .lw (rdOf w) (rs1Of w) (immI w)
  | .lbu _ _ _ => .lbu (rdOf w) (rs1Of w) (immI w)
  | .lhu _ _ _ => .lhu (rdOf w) (rs1Of w) (immI w)
  | .sb _ _ _ => .sb (rs1Of w) (rs2Of w) (immS w)
  | .sh _ _ _ => .sh (rs1Of w) (rs2Of w) (immS w)
  | .sw _ _ _ => .sw (rs1Of w) (rs2Of w) (immS w)
  | .addi _ _ _ => .addi (rdOf w) (rs1Of w) (immI w)
  | .slti _ _ _ => .slti (rdOf w) (rs1Of w) (immI w)
  | .sltiu _ _ _ => .sltiu (rdOf w) (rs1Of w) (immI w)
  | .xori _ _ _ => .xori (rdOf w) (rs1Of w) (immI w)
  | .ori _ _ _ => .ori (rdOf w) (rs1Of w) (immI w)
  | .andi _ _ _ => .andi (rdOf w) (rs1Of w) (immI w)
  | .slli _ _ _ => .slli (rdOf w) (rs1Of w) (shamtOf w)
  | .srli _ _ _ => .srli (rdOf w) (rs1Of w) (shamtOf w)
  | .srai _ _ _ => .srai (rdOf w) (rs1Of w) (shamtOf w)
  | .add _ _ _ => .add (rdOf w) (rs1Of w) (rs2Of w)
  | .sub _ _ _ => .sub (rdOf w) (rs1Of w) (rs2Of w)
  | .sll _ _ _ => .sll (rdOf w) (rs1Of w) (rs2Of w)
  | .slt _ _ _ => .slt (rdOf w) (rs1Of w) (rs2Of w)
  | .sltu _ _ _ => .sltu (rdOf w) (rs1Of w) (rs2Of w)
  | .xor _ _ _ => .xor (rdOf w) (rs1Of w) (rs2Of w)
  | .srl _ _ _ => .srl (rdOf w) (rs1Of w) (rs2Of w)
  | .sra _ _ _ => .sra (rdOf w) (rs1Of w) (rs2Of w)
  | .or _ _ _ => .or (rdOf w) (rs1Of w) (rs2Of w)
  | .and _ _ _ => .and (rdOf w) (rs1Of w) (rs2Of w)
  | .mul _ _ _ => .mul (rdOf w) (rs1Of w) (rs2Of w)
  | .mulh _ _ _ => .mulh (rdOf w) (rs1Of w) (rs2Of w)
  | .mulhsu _ _ _ => .mulhsu (rdOf w) (rs1Of w) (rs2Of w)
  | .mulhu _ _ _ => .mulhu (rdOf w) (rs1Of w) (rs2Of w)
  | .div _ _ _ => .div (rdOf w) (rs1Of w) (rs2Of w)
  | .divu _ _ _ => .divu (rdOf w) (rs1Of w) (rs2Of w)
  | .rem _ _ _ => .rem (rdOf w) (rs1Of w) (rs2Of w)
  | .remu _ _ _ => .remu (rdOf w) (rs1Of w) (rs2Of w)
  | .ecall => .ecall
  | .ebreak => .ebreak

theorem row_readFrom (w : Word) (i : Instr) : (i.readFrom w).row = i.row := by
  cases i <;> rfl

theorem row_mem_opcodeTable (i : Instr) : i.row ∈ opcodeTable := by
  cases i <;> simp [opcodeTable, Instr.oneOfEach, Instr.oneOfEachTransfer, Instr.oneOfEachCompute,
    Instr.row]

/-- Every row of the table is some instruction's row. -/
theorem exists_row_of_mem_opcodeTable {r : OpcodeRow} (h : r ∈ opcodeTable) :
    ∃ i : Instr, i.row = r := by
  obtain ⟨i, -, hi⟩ := List.mem_map.1 h
  exact ⟨i, hi⟩

/-! ## A word of a row decodes to the row's instruction -/

/-- The row fixes the fields its mask covers, and the decoder examines no others
(spec/30_encoding.md R103 to R111). -/
theorem decodeWord_of_matches {i : Instr} {w : Word} (h : i.row.Matches w) :
    decodeWord w = .ok (i.readFrom w) := by
  cases i with simp only [Instr.row] at h
  | lui =>
    have hop : opcodeOf w = 0b0110111 := opcodeOf_of_masked h rfl
    simp [decodeWord, hop, Instr.readFrom]
  | auipc =>
    have hop : opcodeOf w = 0b0010111 := opcodeOf_of_masked h rfl
    simp [decodeWord, hop, Instr.readFrom]
  | jal =>
    have hop : opcodeOf w = 0b1101111 := opcodeOf_of_masked h rfl
    simp [decodeWord, hop, Instr.readFrom]
  | jalr =>
    have hop : opcodeOf w = 0b1100111 := opcodeOf_of_masked h rfl
    simp [decodeWord, hop, Instr.readFrom]
  | beq | bne | blt | bge | bltu | bgeu =>
    have hop : opcodeOf w = 0b1100011 := opcodeOf_of_masked h rfl
    have hf3 := funct3Of_of_masked h rfl
    simp only [decodeWord, decodeBranch, hop, hf3]
    rfl
  | lb | lh | lw | lbu | lhu =>
    have hop : opcodeOf w = 0b0000011 := opcodeOf_of_masked h rfl
    have hf3 := funct3Of_of_masked h rfl
    simp only [decodeWord, decodeLoad, hop, hf3]
    rfl
  | sb | sh | sw =>
    have hop : opcodeOf w = 0b0100011 := opcodeOf_of_masked h rfl
    have hf3 := funct3Of_of_masked h rfl
    simp only [decodeWord, decodeStore, hop, hf3]
    rfl
  | addi | slti | sltiu | xori | ori | andi | slli =>
    have hop : opcodeOf w = 0b0010011 := opcodeOf_of_masked h rfl
    have hf3 := funct3Of_of_masked h rfl
    simp only [decodeWord, decodeOpImm, hop, hf3]
    rfl
  | srli | srai =>
    have hop : opcodeOf w = 0b0010011 := opcodeOf_of_masked h rfl
    have hf3 := funct3Of_of_masked h rfl
    have hf7 := funct7Of_of_masked h rfl
    simp only [decodeWord, decodeOpImm, hop, hf3, hf7]
    rfl
  | add | sub | sll | slt | sltu | xor | srl | sra | or | and
  | mul | mulh | mulhsu | mulhu | div | divu | rem | remu =>
    have hop : opcodeOf w = 0b0110011 := opcodeOf_of_masked h rfl
    have hf3 := funct3Of_of_masked h rfl
    have hf7 := funct7Of_of_masked h rfl
    simp only [decodeWord, decodeOp, decodeOpBase, decodeOpMul, hop, hf3, hf7]
    rfl
  | ecall | ebreak =>
    have hop : opcodeOf w = 0b1110011 := opcodeOf_of_masked h rfl
    have hf7 := funct7Of_of_masked h rfl
    simp only [decodeWord, decodeSystem, hop, hf7]
    rfl

/-! ## A word that decodes is a word of its instruction's row -/

/-- The word lies in the row of `i`, and the operands of `i` are the word's fields. -/
def Instr.DecodedFrom (i : Instr) (w : Word) : Prop := i.row.Matches w ∧ i.readFrom w = i

section
variable {w : Word} {op : BitVec 7} {f3 : BitVec 3} {f7 : BitVec 7}

theorem and_opcodeMask_eq (hop : opcodeOf w = op) : w &&& 0x0000007f#32 = op.setWidth 32 := by
  rw [and_opcodeMask, hop]

theorem and_funct3Mask_eq (hop : opcodeOf w = op) (hf3 : funct3Of w = f3) :
    w &&& 0x0000707f#32 = (f3.setWidth 32 <<< 12) ||| op.setWidth 32 := by
  rw [and_funct3Mask, hop, hf3]

theorem and_funct7Mask_eq (hop : opcodeOf w = op) (hf3 : funct3Of w = f3) (hf7 : funct7Of w = f7) :
    w &&& 0xfe00707f#32 =
      (f7.setWidth 32 <<< 25) ||| (f3.setWidth 32 <<< 12) ||| op.setWidth 32 := by
  rw [and_funct7Mask, hop, hf3, hf7]

theorem and_systemMask_eq (hop : opcodeOf w = op) (hf7 : funct7Of w = f7) :
    w &&& 0xfe00007f#32 = (f7.setWidth 32 <<< 25) ||| op.setWidth 32 := by
  rw [and_systemMask, hop, hf7]

end

theorem bits3_cases (b : BitVec 3) : b = 0b000 ∨ b = 0b001 ∨ b = 0b010 ∨ b = 0b011 ∨ b = 0b100 ∨
    b = 0b101 ∨ b = 0b110 ∨ b = 0b111 := by
  revert b
  decide

section
variable {w : Word} {i : Instr}

theorem decodedFrom_decodeOpBase (hop : opcodeOf w = 0b0110011) (hf7 : funct7Of w = 0b0000000) :
    (decodeOpBase w).DecodedFrom w := by
  rcases bits3_cases (funct3Of w) with hf3 | hf3 | hf3 | hf3 | hf3 | hf3 | hf3 | hf3 <;>
    rw [decodeOpBase, hf3] <;> exact ⟨and_funct7Mask_eq hop hf3 hf7, rfl⟩

theorem decodedFrom_decodeOpMul (hop : opcodeOf w = 0b0110011) (hf7 : funct7Of w = 0b0000001) :
    (decodeOpMul w).DecodedFrom w := by
  rcases bits3_cases (funct3Of w) with hf3 | hf3 | hf3 | hf3 | hf3 | hf3 | hf3 | hf3 <;>
    rw [decodeOpMul, hf3] <;> exact ⟨and_funct7Mask_eq hop hf3 hf7, rfl⟩

theorem decodedFrom_of_decodeOp (hop : opcodeOf w = 0b0110011) (h : decodeOp w = .ok i) :
    i.DecodedFrom w := by
  unfold decodeOp at h
  split_ifs at h with hbase hmul halt hsub hsra <;> cases h
  · exact decodedFrom_decodeOpBase hop hbase
  · exact decodedFrom_decodeOpMul hop hmul
  · exact ⟨and_funct7Mask_eq hop hsub halt, rfl⟩
  · exact ⟨and_funct7Mask_eq hop hsra halt, rfl⟩

theorem decodedFrom_of_decodeOpImm (hop : opcodeOf w = 0b0010011) (h : decodeOpImm w = .ok i) :
    i.DecodedFrom w := by
  unfold decodeOpImm at h
  split_ifs at h with h0 h1 h2 h3 h4 h5 hsrli hsrai h6 <;> cases h
  · exact ⟨and_funct3Mask_eq hop h0, rfl⟩
  · exact ⟨and_funct3Mask_eq hop h1, rfl⟩
  · exact ⟨and_funct3Mask_eq hop h2, rfl⟩
  · exact ⟨and_funct3Mask_eq hop h3, rfl⟩
  · exact ⟨and_funct3Mask_eq hop h4, rfl⟩
  · exact ⟨and_funct7Mask_eq hop h5 hsrli, rfl⟩
  · exact ⟨and_funct7Mask_eq hop h5 hsrai, rfl⟩
  · exact ⟨and_funct3Mask_eq hop h6, rfl⟩
  · have h7 : funct3Of w = 0b111 := by
      simpa only [h0, h1, h2, h3, h4, h5, h6, false_or] using bits3_cases (funct3Of w)
    exact ⟨and_funct3Mask_eq hop h7, rfl⟩

theorem decodedFrom_of_decodeBranch (hop : opcodeOf w = 0b1100011) (h : decodeBranch w = .ok i) :
    i.DecodedFrom w := by
  unfold decodeBranch at h
  split_ifs at h with hf3 hf3 hf3 hf3 hf3 hf3 <;> cases h <;>
    exact ⟨and_funct3Mask_eq hop hf3, rfl⟩

theorem decodedFrom_of_decodeLoad (hop : opcodeOf w = 0b0000011) (h : decodeLoad w = .ok i) :
    i.DecodedFrom w := by
  unfold decodeLoad at h
  split_ifs at h with hf3 hf3 hf3 hf3 hf3 <;> cases h <;>
    exact ⟨and_funct3Mask_eq hop hf3, rfl⟩

theorem decodedFrom_of_decodeStore (hop : opcodeOf w = 0b0100011) (h : decodeStore w = .ok i) :
    i.DecodedFrom w := by
  unfold decodeStore at h
  split_ifs at h with hf3 hf3 hf3 <;> cases h <;> exact ⟨and_funct3Mask_eq hop hf3, rfl⟩

theorem decodedFrom_of_decodeSystem (hop : opcodeOf w = 0b1110011) (h : decodeSystem w = .ok i) :
    i.DecodedFrom w := by
  unfold decodeSystem at h
  split_ifs at h with hf7 hf7 <;> cases h <;> exact ⟨and_systemMask_eq hop hf7, rfl⟩

/-- The decoder's branches, opcode by opcode (spec/30_encoding.md R103). -/
theorem decodedFrom_of_decodeWord (h : decodeWord w = .ok i) : i.DecodedFrom w := by
  unfold decodeWord at h
  split_ifs at h with hop hop hop hop hop hop hop hop hop hop
  · exact decodedFrom_of_decodeOp hop h
  · exact decodedFrom_of_decodeOpImm hop h
  · cases h
    exact ⟨and_opcodeMask_eq hop, rfl⟩
  · cases h
    exact ⟨and_opcodeMask_eq hop, rfl⟩
  · cases h
    exact ⟨and_opcodeMask_eq hop, rfl⟩
  · cases h
    exact ⟨and_opcodeMask_eq hop, rfl⟩
  · exact decodedFrom_of_decodeBranch hop h
  · exact decodedFrom_of_decodeLoad hop h
  · exact decodedFrom_of_decodeStore hop h
  · exact decodedFrom_of_decodeSystem hop h

end

/-- The decoder reads an instruction from exactly the words of its row that carry its operands: no
other word decodes to it, and no such word is refused or decodes to another. -/
theorem decodeWord_eq_ok_iff {w : Word} {i : Instr} : decodeWord w = .ok i ↔ i.DecodedFrom w := by
  refine ⟨decodedFrom_of_decodeWord, fun ⟨hrow, hoperands⟩ => ?_⟩
  rw [decodeWord_of_matches hrow, hoperands]

/-! ## The opcode table -/

theorem matches_of_decodeWord {w : Word} {i : Instr} (h : decodeWord w = .ok i) :
    i.row.Matches w := by
  obtain ⟨hrow, -⟩ := decodedFrom_of_decodeWord h
  exact hrow

theorem error_of_no_row {w : Word} (h : ∀ r ∈ opcodeTable, ¬ r.Matches w) :
    ∃ why, decodeWord w = .error why := by
  cases hw : decodeWord w with
  | ok i => exact absurd (matches_of_decodeWord hw) (h _ (row_mem_opcodeTable i))
  | error why => exact ⟨why, rfl⟩

theorem no_row_of_error {w : Word} {why : DecodeReject} (h : decodeWord w = .error why) :
    ∀ r ∈ opcodeTable, ¬ r.Matches w := by
  intro r hr hmatch
  obtain ⟨i, rfl⟩ := exists_row_of_mem_opcodeTable hr
  rw [decodeWord_of_matches hmatch] at h
  cases h

/-- Settles O3: a word decodes to the instruction of the row it lies in, and to that only. -/
theorem decoderFollowsTheOpcodeTable : Obligations.DecoderFollowsTheOpcodeTable := by
  refine ⟨rfl, fun w => ⟨fun i h => ⟨matches_of_decodeWord h, row_mem_opcodeTable i⟩, ?_,
    error_of_no_row⟩⟩
  intro r hr hmatch
  obtain ⟨i, rfl⟩ := exists_row_of_mem_opcodeTable hr
  exact ⟨i.readFrom w, decodeWord_of_matches hmatch, row_readFrom w i⟩

/-! ## The encoder's inverse -/

/-- The laws of every instruction's row, as one. -/
theorem encode_matches : ∀ i : Instr, i.row.Matches (encode i)
  | .lui .. => RowMatch.lui ..
  | .auipc .. => RowMatch.auipc ..
  | .jal .. => RowMatch.jal ..
  | .jalr .. => RowMatch.jalr ..
  | .beq .. => RowMatch.beq ..
  | .bne .. => RowMatch.bne ..
  | .blt .. => RowMatch.blt ..
  | .bge .. => RowMatch.bge ..
  | .bltu .. => RowMatch.bltu ..
  | .bgeu .. => RowMatch.bgeu ..
  | .lb .. => RowMatch.lb ..
  | .lh .. => RowMatch.lh ..
  | .lw .. => RowMatch.lw ..
  | .lbu .. => RowMatch.lbu ..
  | .lhu .. => RowMatch.lhu ..
  | .sb .. => RowMatch.sb ..
  | .sh .. => RowMatch.sh ..
  | .sw .. => RowMatch.sw ..
  | .addi .. => RowMatch.addi ..
  | .slti .. => RowMatch.slti ..
  | .sltiu .. => RowMatch.sltiu ..
  | .xori .. => RowMatch.xori ..
  | .ori .. => RowMatch.ori ..
  | .andi .. => RowMatch.andi ..
  | .slli .. => RowMatch.slli ..
  | .srli .. => RowMatch.srli ..
  | .srai .. => RowMatch.srai ..
  | .add .. => RowMatch.add ..
  | .sub .. => RowMatch.sub ..
  | .sll .. => RowMatch.sll ..
  | .slt .. => RowMatch.slt ..
  | .sltu .. => RowMatch.sltu ..
  | .xor .. => RowMatch.xor ..
  | .srl .. => RowMatch.srl ..
  | .sra .. => RowMatch.sra ..
  | .or .. => RowMatch.or ..
  | .and .. => RowMatch.and ..
  | .mul .. => RowMatch.mul ..
  | .mulh .. => RowMatch.mulh ..
  | .mulhsu .. => RowMatch.mulhsu ..
  | .mulhu .. => RowMatch.mulhu ..
  | .div .. => RowMatch.div ..
  | .divu .. => RowMatch.divu ..
  | .rem .. => RowMatch.rem ..
  | .remu .. => RowMatch.remu ..
  | .ecall => RowMatch.ecall
  | .ebreak => RowMatch.ebreak

section
variable {imm : Word} (rs2 rs1 : RegIdx) (f3 : BitVec 3) (rd : RegIdx) (op : BitVec 7)

theorem immI_encodeI_of_fitsI (h : fitsI imm = true) : immI (encodeI imm rs1 f3 rd op) = imm := by
  rw [immI_encodeI]
  exact eq_of_beq h

theorem immS_encodeS_of_fitsI (h : fitsI imm = true) : immS (encodeS imm rs2 rs1 f3 op) = imm := by
  rw [immS_encodeS]
  exact eq_of_beq h

theorem immB_encodeB_of_fitsB (h : fitsB imm = true) : immB (encodeB imm rs2 rs1 f3 op) = imm := by
  simp only [fitsB, Bool.and_eq_true, beq_iff_eq, Bool.not_eq_true'] at h
  rw [immB_encodeB imm rs2 rs1 f3 op h.2, h.1]

theorem immU_encodeU_of_fitsU (h : fitsU imm = true) : immU (encodeU imm rd op) = imm :=
  immU_encodeU imm rd op (eq_of_beq h)

theorem immJ_encodeJ_of_fitsJ (h : fitsJ imm = true) : immJ (encodeJ imm rd op) = imm := by
  simp only [fitsJ, Bool.and_eq_true, beq_iff_eq, Bool.not_eq_true'] at h
  rw [immJ_encodeJ imm rd op h.2, h.1]

end

/-- The operands of a well-formed instruction are the fields of its word, format by format
(spec/30_encoding.md R94). -/
theorem readFrom_encode {i : Instr} (h : i.wf = true) : i.readFrom (encode i) = i := by
  cases i with
  | lui | auipc => simp [Instr.readFrom, encode, immU_encodeU_of_fitsU _ _ h]
  | jal => simp [Instr.readFrom, encode, immJ_encodeJ_of_fitsJ _ _ h]
  | beq | bne | blt | bge | bltu | bgeu =>
    simp [Instr.readFrom, encode, immB_encodeB_of_fitsB _ _ _ _ h]
  | jalr | lb | lh | lw | lbu | lhu | addi | slti | sltiu | xori | ori | andi =>
    simp only [Instr.readFrom, encode, rdOf_encodeI, rs1Of_encodeI,
      immI_encodeI_of_fitsI _ _ _ _ h]
  | sb | sh | sw =>
    simp only [Instr.readFrom, encode, rs1Of_encodeS, rs2Of_encodeS,
      immS_encodeS_of_fitsI _ _ _ _ h]
  | slli | srli | srai => simp [Instr.readFrom, encode]
  | add | sub | sll | slt | sltu | xor | srl | sra | or | and
  | mul | mulh | mulhsu | mulhu | div | divu | rem | remu => simp [Instr.readFrom, encode]
  | ecall | ebreak => rfl

theorem decodeWord_encode {i : Instr} (h : i.wf = true) : decodeWord (encode i) = .ok i :=
  decodeWord_eq_ok_iff.2 ⟨encode_matches i, readFrom_encode h⟩

theorem decode_bytes_of_decodeWord {w : Word} {i : Instr} (h : decodeWord w = .ok i)
    (rest : List Byte) :
    decode (byteOfWord w 0 :: byteOfWord w 1 :: byteOfWord w 2 :: byteOfWord w 3 :: rest) =
      .ok (i, rest) := by
  simp only [decode, Machine.wordOfBytes_byteOfWord, h]

/-- Settles O1: the word of an instruction lies in its row, and its fields are the operands. -/
theorem decodeEncodeGivesBackEveryInstruction :
    Obligations.DecodeEncodeGivesBackEveryInstruction :=
  fun _ h => ⟨decodeWord_encode h, decode_bytes_of_decodeWord (decodeWord_encode h)⟩

/-! ## Decoded immediates fit their formats -/

theorem setWidth_signExtend_of_le {n m : Nat} (x : BitVec n) (h : n ≤ m) :
    (x.signExtend m).setWidth n = x := by
  apply BitVec.eq_of_getLsbD_eq
  intro j hj
  simp only [BitVec.getLsbD_setWidth, BitVec.getLsbD_signExtend]
  simp [hj, hj.trans_le h]

theorem getLsbD_zero_signExtend {n : Nat} (x : BitVec (n + 1)) (m : Nat) :
    (x.signExtend (m + 1)).getLsbD 0 = x.getLsbD 0 := by
  rw [BitVec.getLsbD_signExtend]
  simp only [Nat.zero_lt_succ, if_true, decide_true, Bool.true_and]

theorem getLsbD_zero_append {n : Nat} (x : BitVec n) : (x ++ 0#1).getLsbD 0 = false := by
  rw [BitVec.getLsbD_append]
  rfl

theorem fitsI_signExtend (x : BitVec 12) : fitsI (x.signExtend 32) = true := by
  rw [fitsI, setWidth_signExtend_of_le x (by decide), beq_self_eq_true]

theorem fitsB_signExtend (x : BitVec 12) : fitsB ((x ++ 0#1 : BitVec 13).signExtend 32) = true := by
  rw [fitsB, setWidth_signExtend_of_le _ (by decide), beq_self_eq_true,
    getLsbD_zero_signExtend, getLsbD_zero_append]
  rfl

theorem fitsJ_signExtend (x : BitVec 20) : fitsJ ((x ++ 0#1 : BitVec 21).signExtend 32) = true := by
  rw [fitsJ, setWidth_signExtend_of_le _ (by decide), beq_self_eq_true,
    getLsbD_zero_signExtend, getLsbD_zero_append]
  rfl

theorem fitsI_immI (w : Word) : fitsI (immI w) = true := fitsI_signExtend _

theorem fitsI_immS (w : Word) : fitsI (immS w) = true := fitsI_signExtend _

theorem fitsB_immB (w : Word) : fitsB (immB w) = true := fitsB_signExtend _

theorem fitsJ_immJ (w : Word) : fitsJ (immJ w) = true := fitsJ_signExtend _

theorem fitsU_immU (w : Word) : fitsU (immU w) = true := by
  rw [fitsU, immU, BitVec.setWidth_append]
  rfl

/-- The operands a word gives are ones the formats can carry. -/
theorem wf_readFrom (w : Word) (i : Instr) : (i.readFrom w).wf = true := by
  cases i with
  | lui | auipc => exact fitsU_immU w
  | jal => exact fitsJ_immJ w
  | beq | bne | blt | bge | bltu | bgeu => exact fitsB_immB w
  | jalr | lb | lh | lw | lbu | lhu | addi | slti | sltiu | xori | ori | andi => exact fitsI_immI w
  | sb | sh | sw => exact fitsI_immS w
  | slli | srli | srai | add | sub | sll | slt | sltu | xor | srl | sra | or | and
  | mul | mulh | mulhsu | mulhu | div | divu | rem | remu | ecall | ebreak => rfl

/-- Settles O2: a decoded instruction's operands are fields of the word. -/
theorem decodedInstructionIsWellFormed : Obligations.DecodedInstructionIsWellFormed := by
  intro w i h
  obtain ⟨-, hoperands⟩ := decodedFrom_of_decodeWord h
  rw [← hoperands]
  exact wf_readFrom w i

/-! ## Words of no row -/

/-- The ten opcodes of spec/30_encoding.md R103. -/
def knownOpcodes : List (BitVec 7) :=
  [0b0110011#7, 0b0010011#7, 0b0110111#7, 0b0010111#7, 0b1101111#7, 0b1100111#7, 0b1100011#7,
    0b0000011#7, 0b0100011#7, 0b1110011#7]

section
variable {w : Word}

theorem decodeWord_of_unknown_opcode (h : opcodeOf w ∉ knownOpcodes) :
    decodeWord w = .error .opcode := by
  simp only [knownOpcodes, List.mem_cons, List.not_mem_nil, or_false, not_or] at h
  simp [decodeWord, h]

/-- All ten opcodes end in 11, the bits that tell a word from a compressed encoding. -/
theorem unknown_opcode_of_low_bits (h : w.extractLsb' 0 2 ≠ 0b11) : opcodeOf w ∉ knownOpcodes := by
  have hlow : ∀ op ∈ knownOpcodes, op.extractLsb' 0 2 = 0b11 := by decide
  have hbits : (opcodeOf w).extractLsb' 0 2 = w.extractLsb' 0 2 :=
    BitVec.extractLsb'_extractLsb'_of_le (by decide)
  exact fun hmem => h (hbits ▸ hlow _ hmem)

/-- For the opcodes of the standard that this hardware leaves out, such as FENCE's. -/
theorem unknown_opcode_of_mem {ops : List (BitVec 7)} (hops : ∀ op ∈ ops, op ∉ knownOpcodes)
    (h : opcodeOf w ∈ ops) : opcodeOf w ∉ knownOpcodes :=
  hops _ h

theorem decodeWord_of_op_funct7 (hop : opcodeOf w = 0b0110011)
    (h : funct7Of w ∉ [0b0000000#7, 0b0100000#7, 0b0000001#7]) :
    decodeWord w = .error .opFunct := by
  simp only [List.mem_cons, List.not_mem_nil, or_false, not_or] at h
  simp [decodeWord, decodeOp, hop, h]

theorem decodeWord_of_op_alternate_funct3 (hop : opcodeOf w = 0b0110011)
    (hf7 : funct7Of w = 0b0100000) (h : funct3Of w ∉ [0b000#3, 0b101#3]) :
    decodeWord w = .error .opFunct := by
  simp only [List.mem_cons, List.not_mem_nil, or_false, not_or] at h
  simp [decodeWord, decodeOp, hop, hf7, h]

theorem decodeWord_of_shift_right_funct7 (hop : opcodeOf w = 0b0010011)
    (hf3 : funct3Of w = 0b101) (h : funct7Of w ∉ [0b0000000#7, 0b0100000#7]) :
    decodeWord w = .error .opImmFunct7 := by
  simp only [List.mem_cons, List.not_mem_nil, or_false, not_or] at h
  simp [decodeWord, decodeOpImm, hop, hf3, h]

theorem decodeWord_of_branch_funct3 (hop : opcodeOf w = 0b1100011)
    (h : funct3Of w ∈ [0b010#3, 0b011#3]) : decodeWord w = .error .branchFunct3 := by
  simp only [List.mem_cons, List.not_mem_nil, or_false] at h
  rcases h with hf3 | hf3 <;> simp [decodeWord, decodeBranch, hop, hf3]

theorem decodeWord_of_load_funct3 (hop : opcodeOf w = 0b0000011)
    (h : funct3Of w ∈ [0b011#3, 0b110#3, 0b111#3]) : decodeWord w = .error .loadFunct3 := by
  simp only [List.mem_cons, List.not_mem_nil, or_false] at h
  rcases h with hf3 | hf3 | hf3 <;> simp [decodeWord, decodeLoad, hop, hf3]

theorem decodeWord_of_store_funct3 (hop : opcodeOf w = 0b0100011) (h : 0b011#3 ≤ funct3Of w) :
    decodeWord w = .error .storeFunct3 := by
  have hlow : ∀ b : BitVec 3, 0b011#3 ≤ b → b ≠ 0b000#3 ∧ b ≠ 0b001#3 ∧ b ≠ 0b010#3 := by decide
  simp [decodeWord, decodeStore, hop, hlow _ h]

theorem decodeWord_of_system_funct7 (hop : opcodeOf w = 0b1110011)
    (h : funct7Of w ∉ [0b0000000#7, 0b0000001#7]) : decodeWord w = .error .systemFunct7 := by
  simp only [List.mem_cons, List.not_mem_nil, or_false, not_or] at h
  simp [decodeWord, decodeSystem, hop, h]

end

/-! ## The DecodeFault -/

namespace Machine

theorem fetchInstr_of_error {s : State} {why : DecodeReject}
    (hrom : wordIndex s.pc < s.params.romWords)
    (h : decodeWord (s.rom.wordAt (wordIndex s.pc)) = .error why) :
    fetchInstr s = .error (.decodeFault (s.rom.wordAt (wordIndex s.pc))) := by
  simp only [fetchInstr, fetchWord, romRead, romWord_of_lt hrom, h]

/-- The tick that would execute a word of no row takes its DecodeFault, and the run ends there
(spec/30_encoding.md R113). -/
theorem step_of_no_row {s : State} (hready : s.Ready) (hrom : wordIndex s.pc < s.params.romWords)
    (h : ∀ r ∈ opcodeTable, ¬ r.Matches (s.rom.wordAt (wordIndex s.pc))) :
    ∃ t, step s = .next t ∧ Faults (.decodeFault (s.rom.wordAt (wordIndex s.pc))) s t ∧
      step t = .fault (.faulted (.decodeFault (s.rom.wordAt (wordIndex s.pc)))) := by
  obtain ⟨why, hwhy⟩ := error_of_no_row h
  obtain ⟨t, hraise, hfaults⟩ :=
    raiseFault_faults (.decodeFault (s.rom.wordAt (wordIndex s.pc))) s
  have hstep := step_of_fetch_fault hready (fetchInstr_of_error hrom hwhy)
  exact ⟨t, hstep.trans hraise, hfaults, step_of_faulted hfaults.1⟩

end Machine

/-- Settles O5: the decoder refuses each of the listed words, so they match no row. -/
theorem unmatchedWordIsADecodeFault : Obligations.UnmatchedWordIsADecodeFault := by
  refine ⟨fun s => Machine.step_of_no_row, fun w hw => ?_⟩
  rcases hw with hlow | rfl | rfl | hop | hop | ⟨hop, hf7⟩ | ⟨hop, hf7, hf3⟩ | ⟨hop, hf3, hf7⟩ |
    ⟨hop, hf3⟩ | ⟨hop, hf3⟩ | ⟨hop, hf3⟩ | ⟨hop, hf7⟩
  · exact no_row_of_error (decodeWord_of_unknown_opcode (unknown_opcode_of_low_bits hlow))
  · exact no_row_of_error (decodeWord_of_unknown_opcode (by decide))
  · exact no_row_of_error (decodeWord_of_unknown_opcode (by decide))
  · exact no_row_of_error (decodeWord_of_unknown_opcode (unknown_opcode_of_mem (by decide) hop))
  · exact no_row_of_error (decodeWord_of_unknown_opcode (unknown_opcode_of_mem (by decide) hop))
  · exact no_row_of_error (decodeWord_of_op_funct7 hop hf7)
  · exact no_row_of_error (decodeWord_of_op_alternate_funct3 hop hf7 hf3)
  · exact no_row_of_error (decodeWord_of_shift_right_funct7 hop hf3 hf7)
  · exact no_row_of_error (decodeWord_of_branch_funct3 hop hf3)
  · exact no_row_of_error (decodeWord_of_load_funct3 hop hf3)
  · exact no_row_of_error (decodeWord_of_store_funct3 hop hf3)
  · exact no_row_of_error (decodeWord_of_system_funct7 hop hf7)

end Sys2Proof

/-! The proofs of the family of spec/40_fetch_and_step.md: what a fetch answers, what each
instruction does to the bubble and to the status, and the tick-level machine against the
instruction-level one. -/

namespace Sys2Proof.Machine

/-! ## Fetch -/

theorem fetchInstr_of_ok {s : State} {i : Instr} (hrom : wordIndex s.pc < s.params.romWords)
    (h : decodeWord (s.rom.wordAt (wordIndex s.pc)) = .ok i) : fetchInstr s = .ok i := by
  simp only [fetchInstr, fetchWord, romRead, romWord_of_lt hrom, h]

theorem decodeWord_of_decode {b0 b1 b2 b3 : Byte} {i : Instr} {rest : List Byte}
    (h : decode [b0, b1, b2, b3] = .ok (i, rest)) :
    decodeWord (wordOfBytes b0 b1 b2 b3) = .ok i := by
  rw [decode] at h
  split at h
  next j hj =>
    cases h
    exact hj
  next => cases h

/-- Settles O6: the four bytes at `pc` are the word the fetch reads. -/
theorem stepRunsTheDecodedInstruction : Obligations.StepRunsTheDecodedInstruction :=
  fun _ _ hready hrom hdecode =>
    step_of_fetch hready (fetchInstr_of_ok hrom (decodeWord_of_decode hdecode))

/-! ## Idle ticks -/

theorem bubbleTick_eq (s : State) : bubbleTick s = { s with bubble := s.bubble - 1 } := rfl

/-- Settles O8: of the fields, the tick writes only the counter. -/
theorem idleTickOnlyCountsDown : Obligations.IdleTickOnlyCountsDown := by
  intro s hlive hb
  refine ⟨_, step_of_bubble hlive hb, ?_, bubbleTick_pc s, fun _ => rfl,
    ⟨fun _ => rfl, fun _ => rfl⟩, ⟨rfl, rfl, rfl, rfl⟩, rfl, rfl⟩
  rw [bubbleTick_bubble, Fin.val_sub_one_of_ne_zero hb]
  exact Nat.succ_pred_eq_of_ne_zero (Fin.val_ne_zero_iff.2 hb)

theorem core_run_succ_of_next {s t : State} (h : step s = .next t) (k : Nat) :
    core.run (k + 1) s = core.run k t := by
  rw [core_run_succ, h]

theorem core_run_one (s : State) : core.run 1 s = step s := by
  rw [core_run_succ]
  cases step s <;> rfl

/-- The two idle ticks after a redirect (spec/40_fetch_and_step.md R139). -/
theorem two_idle_ticks {t : State} (hlive : t.Live) (hb : t.bubble = 2) :
    step t = .next { t with bubble := 1 } ∧ core.run 2 t = .next { t with bubble := 0 } := by
  have hfirst : step t = .next { t with bubble := 1 } := by
    rw [step_of_bubble hlive (by simp [hb]), bubbleTick_eq, hb]
    rfl
  refine ⟨hfirst, ?_⟩
  have hsecond : step { t with bubble := 1 } = .next { t with bubble := 0 } :=
    step_of_bubble hlive (by simp)
  exact (core_run_succ_of_next hfirst 1).trans ((core_run_one _).trans hsecond)

/-! ## What an instruction does to the bubble -/

theorem ecall_next_bubble {s t : State} (h : exec .ecall s = .next t) : t.bubble = s.bubble := by
  rcases ecall_next_cases h with ⟨-, b, rest, -, rfl⟩ | ⟨-, -, -, rfl⟩ | ⟨-, -, -, rfl⟩ |
    ⟨bytes, rfl⟩ | ⟨-, bytes, f, rfl⟩ | ⟨-, rfl⟩ <;> rfl

/-- The bubble starts when an instruction redirects and completes; when it does not redirect, or
ends the run, the counter is as before (spec/40_fetch_and_step.md R138). -/
theorem exec_next_bubble {i : Instr} {s t : State} (h : exec i s = .next t) :
    (Redirecting i s ∧ t.status = s.status ∧ t.bubble = 2) ∨
      (t.bubble = s.bubble ∧ (Redirecting i s → ¬ t.Live)) := by
  by_cases hi : i = .ecall
  · subst hi
    exact .inr ⟨ecall_next_bubble h, False.elim⟩
  rcases exec_next_cases hi h with ⟨e, hsound, rfl⟩ | ⟨f, rfl⟩
  · by_cases hr : e.redirect = true
    · exact .inl ⟨hsound.redirect.1 hr, commit_status e s, by rw [commit_bubble, if_pos hr]; rfl⟩
    · exact .inr ⟨by rw [commit_bubble, if_neg hr], fun hred => absurd (hsound.redirect.2 hred) hr⟩
  · exact .inr ⟨rfl, fun _ => Status.noConfusion⟩

/-- Settles O9: the counter is 2 exactly after a completed redirect, and then two idle ticks
follow. -/
theorem redirectingInstructionsStartTheBubble :
    Obligations.RedirectingInstructionsStartTheBubble := by
  intro i s t h hstatus hlive
  have htlive : t.Live := hstatus.trans hlive
  rcases exec_next_bubble h with ⟨hred, -, hb⟩ | ⟨hb, hended⟩
  · exact ⟨fun _ => ⟨hb, two_idle_ticks htlive hb⟩, fun hnot => absurd hred hnot⟩
  · exact ⟨fun hred => absurd htlive (hended hred), fun _ => hb⟩

/-- After a tick that began with no idle tick pending, none is pending or both are. -/
theorem step_next_bubble {s t : State} (hb : s.bubble = 0) (h : step s = .next t) :
    t.bubble = 0 ∨ (t.Live ∧ t.bubble = 2) := by
  obtain ⟨hlive, ⟨hne, -⟩ | ⟨-, f, -, rfl⟩ | ⟨-, i, -, hexec⟩⟩ := step_next_cases h
  · exact absurd hb hne
  · exact .inl hb
  · rcases exec_next_bubble hexec with ⟨-, hstatus, hb'⟩ | ⟨hb', -⟩
    · exact .inr ⟨hstatus.trans hlive, hb'⟩
    · exact .inl (hb'.trans hb)

/-- Settles O10: a bubble pending after a ready machine's tick is a whole one. -/
theorem redirectIsFollowedByTwoIdleTicks : Obligations.RedirectIsFollowedByTwoIdleTicks := by
  intro s t hready h hlive hpending
  have hb : t.bubble = 2 := ((step_next_bubble hready.2 h).resolve_left hpending).2
  obtain ⟨hfirst, hsecond⟩ := two_idle_ticks hlive hb
  exact ⟨hb, (core_run_one t).trans hfirst, hsecond⟩

/-! ## Every instruction answers, or its parameter refuses -/

theorem openResult_eq_none_iff (p : OpenResult) : openResult p = none ↔ p = .refuse := by
  cases p <;> simp [openResult]

theorem ne_zero_of_signedOverflow {a b : Word} (h : signedOverflow a b = true) : b ≠ 0 := by
  rintro rfl
  simp [signedOverflow] at h

/-- The shape that signed division and remainder share has no result only on the operands of R250
with the parameter `refuse`. -/
theorem signedResult_eq_none_iff (p : OpenResult) (a b byZero result : Word) :
    (if b = 0 then some byZero
      else if signedOverflow a b then openResult p else some result) = none ↔
      signedOverflow a b = true ∧ p = .refuse := by
  split_ifs with hb hover
  · exact ⟨False.elim, fun h => absurd hb (ne_zero_of_signedOverflow h.1)⟩
  · rw [openResult_eq_none_iff, and_iff_right hover]
  · exact ⟨False.elim, fun h => absurd h.1 hover⟩

theorem aluDiv_eq_none_iff (p : OpenResult) (a b : Word) :
    aluDiv p a b = none ↔ signedOverflow a b = true ∧ p = .refuse :=
  signedResult_eq_none_iff p a b _ _

theorem aluRem_eq_none_iff (p : OpenResult) (a b : Word) :
    aluRem p a b = none ↔ signedOverflow a b = true ∧ p = .refuse :=
  signedResult_eq_none_iff p a b _ _

theorem transfer_answers (target : Word) (link : Option (RegIdx × Word)) (s : State) :
    ∃ t, transfer target link s = .next t := by
  cases ha : aligned target with
  | true => exact ⟨_, transfer_of_aligned link s ha⟩
  | false => exact ⟨_, transfer_of_not_aligned link s ha⟩

theorem branch_answers (cond : Word → Word → Bool) (rs1 rs2 : RegIdx) (imm : Word) (s : State) :
    ∃ t, branch cond rs1 rs2 imm s = .next t := by
  cases ha : aligned (pcRelative imm s) with
  | false => exact ⟨_, branch_of_not_aligned cond rs1 rs2 ha⟩
  | true =>
    cases hc : cond (s.x rs1) (s.x rs2) with
    | true => exact ⟨_, branch_taken ha hc⟩
    | false => exact ⟨_, branch_untaken ha hc⟩

theorem load_answers (rd rs1 : RegIdx) (imm : Word) (s : State) :
    ∃ t, load rd rs1 imm s = .next t := by
  rcases load_cases rd rs1 imm s with ⟨-, hend⟩ | ⟨-, hend⟩
  · exact ⟨_, hend⟩
  · exact ⟨_, hend⟩

theorem store_answers (rs1 rs2 : RegIdx) (imm : Word) (s : State) :
    ∃ t, store rs1 rs2 imm s = .next t := by
  rcases store_cases rs1 rs2 imm s with ⟨-, hend⟩ | ⟨-, -, hend⟩ | ⟨-, -, hend⟩
  · exact ⟨_, hend⟩
  · exact ⟨_, hend⟩
  · exact ⟨_, hend⟩

theorem serviceRead_answers (s : State) : ∃ t, serviceRead s = .next t := by
  rw [serviceRead]
  split
  · exact ⟨_, rfl⟩
  · split
    · exact ⟨_, rfl⟩
    · exact ⟨_, rfl⟩

theorem serviceWriteRom_answers (s : State) : ∃ t, serviceWriteRom s = .next t := by
  simp only [serviceWriteRom]
  split
  · exact ⟨_, rfl⟩
  · exact ⟨_, rfl⟩

theorem ecall_answers (s : State) : ∃ t, exec .ecall s = .next t := by
  simp only [exec, execEcall]
  split_ifs
  · exact serviceRead_answers s
  · exact ⟨_, rfl⟩
  · exact serviceWriteRom_answers s
  · exact ⟨_, rfl⟩
  · exact ⟨_, rfl⟩

theorem div_answers_or_refuses (rd rs1 rs2 : RegIdx) (s : State) :
    (∃ t, exec (.div rd rs1 rs2) s = .next t) ∨
    (signedOverflow (s.x rs1) (s.x rs2) = true ∧ s.params.divOverflow = .refuse ∧
      exec (.div rd rs1 rs2) s = .refused .divOverflow) := by
  cases hv : aluDiv s.params.divOverflow (s.x rs1) (s.x rs2) with
  | some v =>
    left
    simp only [exec, execDiv, hv]
    exact ⟨_, writeBack_eq rd v s⟩
  | none =>
    obtain ⟨hover, hrefuse⟩ := (aluDiv_eq_none_iff _ _ _).1 hv
    exact .inr ⟨hover, hrefuse, by simp only [exec, execDiv, hv]⟩

theorem rem_answers_or_refuses (rd rs1 rs2 : RegIdx) (s : State) :
    (∃ t, exec (.rem rd rs1 rs2) s = .next t) ∨
    (signedOverflow (s.x rs1) (s.x rs2) = true ∧ s.params.remOverflow = .refuse ∧
      exec (.rem rd rs1 rs2) s = .refused .remOverflow) := by
  cases hv : aluRem s.params.remOverflow (s.x rs1) (s.x rs2) with
  | some v =>
    left
    simp only [exec, execRem, hv]
    exact ⟨_, writeBack_eq rd v s⟩
  | none =>
    obtain ⟨hover, hrefuse⟩ := (aluRem_eq_none_iff _ _ _).1 hv
    exact .inr ⟨hover, hrefuse, by simp only [exec, execRem, hv]⟩

/-- Every instruction answers a next state, except DIV and REM on the operands of R250 where their
parameter is `refuse`. -/
theorem exec_answers_or_refuses (i : Instr) (s : State) :
    (∃ t, exec i s = .next t) ∨
    (∃ rd rs1 rs2, i = .div rd rs1 rs2 ∧ signedOverflow (s.x rs1) (s.x rs2) = true ∧
      s.params.divOverflow = .refuse ∧ exec i s = .refused .divOverflow) ∨
    (∃ rd rs1 rs2, i = .rem rd rs1 rs2 ∧ signedOverflow (s.x rs1) (s.x rs2) = true ∧
      s.params.remOverflow = .refuse ∧ exec i s = .refused .remOverflow) := by
  cases i with
  | div rd rs1 rs2 =>
    rcases div_answers_or_refuses rd rs1 rs2 s with hnext | hrefused
    · exact .inl hnext
    · exact .inr (.inl ⟨rd, rs1, rs2, rfl, hrefused⟩)
  | rem rd rs1 rs2 =>
    rcases rem_answers_or_refuses rd rs1 rs2 s with hnext | hrefused
    · exact .inl hnext
    · exact .inr (.inr ⟨rd, rs1, rs2, rfl, hrefused⟩)
  | auipc | jal | jalr => exact .inl (transfer_answers _ _ s)
  | beq | bne | blt | bge | bltu | bgeu => exact .inl (branch_answers _ _ _ _ s)
  | lb | lh | lw | lbu | lhu => exact .inl (load_answers _ _ _ s)
  | sb | sh | sw => exact .inl (store_answers _ _ _ s)
  | ecall => exact .inl (ecall_answers s)
  | lui | addi | slti | sltiu | xori | ori | andi | slli | srli | srai
  | add | sub | sll | slt | sltu | xor | srl | sra | or | and
  | mul | mulh | mulhsu | mulhu | divu | remu | ebreak => exact .inl ⟨_, rfl⟩

/-- Settles O12: an idle tick and a fault at the fetch answer, and an instruction that does not
answer names the parameter that refuses. -/
theorem liveStepAlwaysAnswers : Obligations.LiveStepAlwaysAnswers := by
  intro s hlive hdiv hrem
  by_cases hb : s.bubble = 0
  · cases hf : fetchInstr s with
    | error f => exact ⟨_, step_of_fetch_fault ⟨hlive, hb⟩ hf⟩
    | ok i =>
      rw [step_of_fetch ⟨hlive, hb⟩ hf]
      rcases exec_answers_or_refuses i s with hnext | ⟨_, _, _, -, -, hrefuse, -⟩ |
        ⟨_, _, _, -, -, hrefuse, -⟩
      · exact hnext
      · exact absurd hrefuse hdiv
      · exact absurd hrefuse hrem
  · exact ⟨_, step_of_bubble hlive hb⟩

/-! ## How a run exits -/

theorem ecall_exits {s : State} (h : s.x regA7 = 10) : exec .ecall s = serviceExit s := by
  simp [exec, execEcall, h]

/-- An instruction that exits a live run is ECALL's service 10 (spec/47_system.md R266). -/
theorem exec_next_exited {i : Instr} {s t : State} {c : Word} (hlive : s.Live)
    (h : exec i s = .next t) (hexit : t.status = .exited c) :
    i = .ecall ∧ s.x regA7 = 10 ∧ c = s.x regA0 := by
  have hrunning {u : State} (hu : u.status = s.status) : u.status ≠ .exited c := by
    rw [hu, hlive]
    exact Status.noConfusion
  by_cases hi : i = .ecall
  · subst hi
    rcases ecall_next_cases h with ⟨-, b, rest, -, rfl⟩ | ⟨-, -, -, rfl⟩ | ⟨-, -, -, rfl⟩ |
      ⟨bytes, rfl⟩ | ⟨-, bytes, f, rfl⟩ | ⟨hservice, rfl⟩
    · exact absurd hexit (hrunning rfl)
    · exact absurd hexit (hrunning rfl)
    · exact absurd hexit (hrunning rfl)
    · exact absurd hexit (hrunning rfl)
    · cases hexit
    · cases hexit
      exact ⟨rfl, hservice, rfl⟩
  · rcases exec_next_cases hi h with ⟨e, -, rfl⟩ | ⟨f, rfl⟩
    · exact absurd hexit (hrunning rfl)
    · cases hexit

/-- Settles O14: of the ways a tick ends only an instruction can exit, and among those only
service 10. -/
theorem runEndsByExitOnlyThroughServiceTen : Obligations.RunEndsByExitOnlyThroughServiceTen := by
  intro s hlive
  refine ⟨fun t c h hexit => ?_, fun hb hfetch hservice => ?_⟩
  · obtain ⟨-, ⟨-, rfl⟩ | ⟨-, f, -, rfl⟩ | ⟨hb, i, hfetch, hexec⟩⟩ := step_next_cases h
    · rw [bubbleTick_status, hlive] at hexit
      cases hexit
    · cases hexit
    · obtain ⟨rfl, hservice, hc⟩ := exec_next_exited hlive hexec hexit
      exact ⟨hb, hfetch, hservice, hc⟩
  · exact ⟨_, (step_of_fetch ⟨hlive, hb⟩ hfetch).trans (ecall_exits hservice), rfl⟩

/-! ## The instruction-level machine -/

/-- The answer with the idle ticks it leaves pending taken away. -/
def skipIdleTicks : Result → Result
  | .next t => .next { t with bubble := 0 }
  | .fault f => .fault f
  | .refused r => .refused r

theorem skipIdleTicks_next_of_bubble_zero {t : State} (h : t.bubble = 0) :
    skipIdleTicks (.next t) = .next t := by
  rw [skipIdleTicks, ← h]

theorem bubble_of_skipIdleTicks_next {r : Result} {t : State} (h : skipIdleTicks r = .next t) :
    t.bubble = 0 := by
  cases r with
  | next u =>
    cases h
    rfl
  | fault f => cases h
  | refused r => cases h

/-- With no idle tick pending, the instruction-level machine takes the tick and skips the idle ticks
after it (spec/40_fetch_and_step.md R142). -/
theorem instrStep_eq_skipIdleTicks_step {s : State} (hb : s.bubble = 0) :
    instrStep s = skipIdleTicks (step s) := by
  cases hs : s.status with
  | faulted f => simp only [instrStep, step, hs, skipIdleTicks]
  | exited c => simp only [instrStep, step, hs, skipIdleTicks]
  | running =>
    cases hf : fetchInstr s with
    | error f =>
      have hskip : skipIdleTicks (raiseFault f s) = raiseFault f s :=
        skipIdleTicks_next_of_bubble_zero hb
      rw [step_of_fetch_fault ⟨hs, hb⟩ hf, hskip]
      simp only [instrStep, hs, hf]
    | ok i =>
      rw [step_of_fetch ⟨hs, hb⟩ hf]
      simp only [instrStep, hs, hf]
      cases exec i s <;> rfl

theorem instrStep_next_bubble {s t : State} (hb : s.bubble = 0) (h : instrStep s = .next t) :
    t.bubble = 0 :=
  bubble_of_skipIdleTicks_next ((instrStep_eq_skipIdleTicks_step hb).symm.trans h)

/-- One instruction is one tick, or three when it redirects (spec/70_reset_and_hazards.md R318). -/
theorem core_run_eq_instrStep {s : State} (hb : s.bubble = 0) :
    ∃ j, 1 ≤ j ∧ j ≤ 3 ∧ core.run j s = instrStep s := by
  rw [instrStep_eq_skipIdleTicks_step hb]
  cases hstep : step s with
  | next t =>
    rcases step_next_bubble hb hstep with hb' | ⟨hlive, hb'⟩
    · refine ⟨1, by omega, by omega, ?_⟩
      rw [skipIdleTicks_next_of_bubble_zero hb']
      exact (core_run_one s).trans hstep
    · have htwo := (two_idle_ticks hlive hb').2
      exact ⟨3, by omega, by omega, (core_run_succ_of_next hstep 2).trans htwo⟩
  | fault f => exact ⟨1, by omega, by omega, (core_run_one s).trans hstep⟩
  | refused r => exact ⟨1, by omega, by omega, (core_run_one s).trans hstep⟩

theorem core_run_add_of_next {j : Nat} {s t : State} (h : core.run j s = .next t) (k : Nat) :
    core.run (j + k) s = core.run k t := by
  induction j generalizing s with
  | zero =>
    cases h
    rw [Nat.zero_add]
  | succ j ih =>
    rw [core_run_succ] at h
    split at h
    next u hu => rw [Nat.succ_add, core_run_succ_of_next hu, ih h]
    next => cases h
    next => cases h

/-- The simulation: whatever `n` instructions answer, at most `3 * n` ticks answer too; and where
that is a state, no idle tick is pending in it and it took at least `n` ticks. -/
theorem core_run_eq_instrCore_run (n : Nat) {s : State} (hb : s.bubble = 0) :
    ∃ k, k ≤ 3 * n ∧ core.run k s = instrCore.run n s ∧
      ∀ t : State, instrCore.run n s = .next t → t.bubble = 0 ∧ n ≤ k := by
  induction n generalizing s with
  | zero =>
    refine ⟨0, le_rfl, rfl, fun t h => ?_⟩
    cases h
    exact ⟨hb, le_rfl⟩
  | succ n ih =>
    obtain ⟨j, hj, hj', hrun⟩ := core_run_eq_instrStep hb
    rw [instrCore_run_succ]
    cases hstep : instrStep s with
    | next u =>
      obtain ⟨k, hk, hrun', hnext⟩ := ih (instrStep_next_bubble hb hstep)
      refine ⟨j + k, by omega, ?_, fun t h => ?_⟩
      · rw [core_run_add_of_next (hrun.trans hstep), hrun']
      · obtain ⟨hb', hle⟩ := hnext t h
        exact ⟨hb', by omega⟩
    | fault f => exact ⟨j, by omega, hrun.trans hstep, fun _ h => by cases h⟩
    | refused r => exact ⟨j, by omega, hrun.trans hstep, fun _ h => by cases h⟩

/-- Settles O17: the simulation, read off for each of the three outcomes. -/
theorem instructionLevelViewAgrees : Obligations.InstructionLevelViewAgrees := by
  intro n s hb
  obtain ⟨k, hk, hrun, hnext⟩ := core_run_eq_instrCore_run n hb
  refine ⟨fun t h => ?_, fun f h => ⟨k, hk, hrun.trans h⟩, fun r h => ⟨k, hk, hrun.trans h⟩⟩
  obtain ⟨hb', hle⟩ := hnext t h
  exact ⟨hb', k, hle, hk, hrun.trans h⟩

end Sys2Proof.Machine

/-! The proofs of the family of spec/41_upper_immediate.md: a register write and a jump without a
link, each with its frame, and why AUIPC's target is aligned. -/

namespace Sys2Proof.Machine

/-- The words of an instruction's row decode to that instruction, its operands read from the
word. -/
theorem encodedBy_row (i : Instr) : EncodedBy i.row.mask i.row.value (fun w => i.readFrom w) :=
  fun _ h => decodeWord_of_matches h

/-- Effects that write no RAM, call nobody and draw no free value touch the registers, `pc` and the
bubble at most. -/
theorem commit_frame {e : Effects} (s : State) (hram : e.ramWrite = none) (hcalls : e.calls = [])
    (hfree : e.freeDrawn = 0) :
    SameMemory s (commit e s) ∧ SameWorld s (commit e s) ∧ SameRun s (commit e s) := by
  simp [SameMemory, SameWorld, SameRun, hram, hcalls, hfree]

theorem writeBack_computes (rd : RegIdx) (v : Word) (s : State) :
    ∃ t, writeBack rd v s = .next t ∧ Computes rd v s t :=
  ⟨_, writeBack_eq rd v s, regsBut_commit s rfl, commit_pc_of_pcLoad_none s rfl, rfl,
    commit_frame s rfl rfl rfl⟩

/-- A transfer without a link register to an aligned target only redirects
(spec/42_jumps_and_branches.md R161). -/
theorem transfer_redirects {target : Word} (s : State) (h : aligned target = true) :
    ∃ t, transfer target none s = .next t ∧ Redirects target s t :=
  ⟨_, transfer_of_aligned none s h, sameRegs_commit s rfl, commit_pc_of_pcLoad_some s rfl, rfl,
    commit_frame s rfl rfl rfl⟩

/-- Settles O31: the encoding is LUI's row, and executing it is one register write. -/
theorem luiWritesTheUpperImmediate : Obligations.LuiWritesTheUpperImmediate :=
  ⟨encodedBy_row (.lui 0 0), writeBack_computes⟩

/-! ## AUIPC's target -/

theorem aligned_add {a b : Word} (ha : aligned a = true) (hb : aligned b = true) :
    aligned (a + b) = true := by
  rw [aligned_iff] at ha hb ⊢
  rw [BitVec.toNat_add]
  omega

/-- The low 12 bits of a U-immediate are zero, the low two among them. -/
theorem aligned_of_fitsU {imm : Word} (h : fitsU imm = true) : aligned imm = true := by
  have hlow : imm.toNat % 2 ^ 12 = 0 := by
    rw [fitsU, beq_iff_eq] at h
    rw [← BitVec.toNat_setWidth, h]
    rfl
  rw [aligned_iff]
  omega

/-- Settles O32: AUIPC is the transfer without a link, and both summands of its target are multiples
of 4. -/
theorem auipcJumpsAndWritesNoRegister : Obligations.AuipcJumpsAndWritesNoRegister :=
  ⟨encodedBy_row (.auipc 0 0),
    fun _ imm s h => transfer_redirects s ((aligned_iff (s.pc + imm)).2 h),
    fun pc imm hpc himm => (aligned_iff (pc + imm)).1 (aligned_add hpc (aligned_of_fitsU himm))⟩

end Sys2Proof.Machine

/-! The proofs of the family of spec/42_jumps_and_branches.md: a transfer with a link register, the
alignment of a target, and a branch's three outcomes. -/

namespace Sys2Proof.Machine

/-! ## Transfers and the target's alignment -/

theorem not_aligned_iff (t : Word) : aligned t = false ↔ t.toNat % 4 ≠ 0 := by
  rw [← Bool.not_eq_true, aligned_iff]

/-- A transfer with a link register to an aligned target redirects and writes the return address
(spec/42_jumps_and_branches.md R162). -/
theorem transfer_redirectsAndLinks {target : Word} (rd : RegIdx) (s : State)
    (h : aligned target = true) :
    ∃ t, transfer target (some (rd, s.pc + 4)) s = .next t ∧ RedirectsAndLinks rd target s t :=
  ⟨_, transfer_of_aligned _ s h, regsBut_commit s rfl, commit_pc_of_pcLoad_some s rfl, rfl,
    commit_frame s rfl rfl rfl⟩

/-- A transfer to a misaligned target writes no link (spec/42_jumps_and_branches.md R161). -/
theorem transfer_faults {target : Word} (link : Option (RegIdx × Word)) (s : State)
    (h : aligned target = false) :
    ∃ t, transfer target link s = .next t ∧ Faults (.alignmentFault target) s t := by
  rw [transfer_of_not_aligned link s h]
  exact raiseFault_faults _ s

/-- With bit 0 cleared, a word is a multiple of 4 exactly when its bit 1 is clear. -/
theorem aligned_and_clearBitZero (a : Word) : aligned (a &&& 0xFFFFFFFE#32) = !a.getLsbD 1 := by
  have hlow : ∀ b : BitVec 2, (b &&& 0b10#2 == 0) = !b.getLsbD 1 := by decide
  have hbit : (a.extractLsb' 0 2).getLsbD 1 = a.getLsbD 1 := by simp
  rw [aligned, BitVec.extractLsb'_and, ← hbit]
  exact hlow (a.extractLsb' 0 2)

/-- Settles O33: JAL is the transfer with a link to `pc + imm`. -/
theorem jalLinksAndJumps : Obligations.JalLinksAndJumps :=
  ⟨encodedBy_row (.jal 0 0), fun rd imm s =>
    ⟨fun h => transfer_redirectsAndLinks rd s ((aligned_iff (s.pc + imm)).2 h),
      fun h => transfer_faults _ s ((not_aligned_iff (s.pc + imm)).2 h)⟩⟩

/-- Settles O34: JALR is the transfer with a link to the cleared sum, which is aligned by bit 1. -/
theorem jalrLinksAndJumps : Obligations.JalrLinksAndJumps := by
  refine ⟨encodedBy_row (.jalr 0 0 0), fun rd rs1 imm s => ?_⟩
  have haligned := aligned_and_clearBitZero (s.x rs1 + imm)
  exact ⟨fun h => transfer_redirectsAndLinks rd s (haligned.trans (congrArg not h)),
    fun h => transfer_faults _ s (haligned.trans (congrArg not h))⟩

/-! ## Branches -/

/-- Settles O35: each encoding is the branch's row of the opcode table. -/
theorem branchWordsDecode : Obligations.BranchWordsDecode :=
  ⟨encodedBy_row (.beq 0 0 0), encodedBy_row (.bne 0 0 0), encodedBy_row (.blt 0 0 0),
    encodedBy_row (.bge 0 0 0), encodedBy_row (.bltu 0 0 0), encodedBy_row (.bgeu 0 0 0)⟩

section
variable {cond : Word → Word → Bool} {rs1 rs2 : RegIdx} {imm : Word} {s : State}

/-- A taken branch is the transfer without a link. -/
theorem branch_redirects (h : aligned (s.pc + imm) = true) (hc : cond (s.x rs1) (s.x rs2) = true) :
    ∃ t, branch cond rs1 rs2 imm s = .next t ∧ Redirects (s.pc + imm) s t := by
  have htransfer : branch cond rs1 rs2 imm s = transfer (s.pc + imm) none s :=
    (branch_taken h hc).trans (transfer_of_aligned none s h).symm
  rw [htransfer]
  exact transfer_redirects s h

theorem branch_onlyAdvances (h : aligned (s.pc + imm) = true)
    (hc : cond (s.x rs1) (s.x rs2) = false) :
    ∃ t, branch cond rs1 rs2 imm s = .next t ∧ OnlyAdvances s t :=
  ⟨_, branch_untaken h hc, sameRegs_commit s rfl, commit_pc_of_pcLoad_some s rfl, rfl,
    commit_frame s rfl rfl rfl⟩

/-- The check is made before the condition is read (spec/42_jumps_and_branches.md R164). -/
theorem branch_faults (cond : Word → Word → Bool) (rs1 rs2 : RegIdx)
    (h : aligned (s.pc + imm) = false) :
    ∃ t, branch cond rs1 rs2 imm s = .next t ∧ Faults (.alignmentFault (s.pc + imm)) s t := by
  rw [branch_of_not_aligned cond rs1 rs2 h]
  exact raiseFault_faults _ s

/-- A branch with an aligned target, its condition read as a proposition about the two registers. -/
theorem branch_goes_by_condition {P : Prop} (h : aligned (s.pc + imm) = true)
    (hP : cond (s.x rs1) (s.x rs2) = true ↔ P) :
    (P → ∃ t, branch cond rs1 rs2 imm s = .next t ∧ Redirects (s.pc + imm) s t) ∧
      (¬ P → ∃ t, branch cond rs1 rs2 imm s = .next t ∧ OnlyAdvances s t) :=
  ⟨fun hp => branch_redirects h (hP.2 hp),
    fun hnot => branch_onlyAdvances h (Bool.eq_false_iff.2 fun hc => hnot (hP.1 hc))⟩

end

/-- Settles O36: the six branches are one operation, each with its own condition. -/
theorem branchesGoWhereTheirConditionSays : Obligations.BranchesGoWhereTheirConditionSays := by
  intro rs1 rs2 imm s h p hp
  have haligned := (aligned_iff (s.pc + imm)).2 h
  simp only [List.mem_cons, List.not_mem_nil, or_false] at hp
  rcases hp with rfl | rfl | rfl | rfl | rfl | rfl
  · exact branch_goes_by_condition haligned (condEq_iff _ _)
  · exact branch_goes_by_condition haligned (condNe_iff _ _)
  · exact branch_goes_by_condition haligned (condLt_iff _ _)
  · exact branch_goes_by_condition haligned (condGe_iff _ _)
  · exact branch_goes_by_condition haligned (condLtu_iff _ _)
  · exact branch_goes_by_condition haligned (condGeu_iff _ _)

/-- Settles O37: whatever the condition, the target's alignment is checked first. -/
theorem branchesFaultOnAMisalignedTarget : Obligations.BranchesFaultOnAMisalignedTarget := by
  intro rs1 rs2 imm s h i hi
  have haligned := (not_aligned_iff (s.pc + imm)).2 h
  simp only [List.mem_cons, List.not_mem_nil, or_false] at hi
  rcases hi with rfl | rfl | rfl | rfl | rfl | rfl <;> exact branch_faults _ rs1 rs2 haligned

end Sys2Proof.Machine

/-! The proofs of the family of spec/43_loads_and_stores.md: the words of the loads and stores, and
what one of them does inside the RAM. -/

namespace Sys2Proof.Machine

/-- Settles O38: each encoding is the load's or the store's row of the opcode table. -/
theorem loadAndStoreWordsDecode : Obligations.LoadAndStoreWordsDecode :=
  ⟨encodedBy_row (.lb 0 0 0), encodedBy_row (.lh 0 0 0), encodedBy_row (.lw 0 0 0),
    encodedBy_row (.lbu 0 0 0), encodedBy_row (.lhu 0 0 0), encodedBy_row (.sb 0 0 0),
    encodedBy_row (.sh 0 0 0), encodedBy_row (.sw 0 0 0)⟩

/-- Settles O39: whatever its mnemonic, a load inside the RAM writes the word it reads back to
`rd`. -/
theorem loadsReadTheWholeWord : Obligations.LoadsReadTheWholeWord := by
  intro rd rs1 imm s hidx i hi
  rw [exec_eq_load_of_mem hi, load_in_ram hidx]
  exact writeBack_computes rd _ s

/-- Settles O41: the store stages one RAM word and calls nobody. -/
theorem storesReplaceTheWholeRamWord : Obligations.StoresReplaceTheWholeRamWord := by
  intro rs1 rs2 imm s hram hbelow hidx i hi
  have hstore := store_in_ram (rs2 := rs2) hbelow hidx
  obtain ⟨hparams, hword⟩ := store_in_ram_next hram hbelow hidx hstore
  refine ⟨_, (exec_eq_store_of_mem hi s).trans hstore, hword,
    fun _ ha => store_next_byteAt hstore (.inl ha), fun _ => rfl,
    storeRegs_commit_clobberRd imm s rfl rfl,
    commit_pc_of_pcLoad_none s (clobberRd_pcLoad imm s _), ?_, ⟨rfl, hparams⟩, ?_, rfl, rfl⟩
  · rw [commit_bubble, clobberRd_redirect]
    rfl
  · rw [commit_events, clobberRd_calls, List.append_nil]

/-- Settles O4: the decoder evaluates on each word, one of every family, a closed fact. -/
theorem sampleWordsDecodeAsWrittenOut : Obligations.SampleWordsDecodeAsWrittenOut :=
  ⟨rfl, rfl, rfl, rfl, rfl, rfl, rfl, rfl, rfl, rfl, rfl, rfl⟩

end Sys2Proof.Machine

/-! The proofs of the family of spec/44_alu_immediate.md: the ALU's sums, comparisons and shifts as
exact arithmetic, and one register write for each instruction. -/

namespace Sys2Proof.Machine

/-! ## The ALU's results as exact arithmetic -/

theorem aluAdd_eq_ofNat (a b : Word) : aluAdd a b = BitVec.ofNat 32 (a.toNat + b.toNat) := rfl

theorem boolWord_of_iff {c : Bool} {P : Prop} [Decidable P] (h : c = true ↔ P) :
    boolWord c = if P then 1 else 0 :=
  if_congr h rfl rfl

theorem aluSlt_eq_ite (a b : Word) : aluSlt a b = if a.toInt < b.toInt then 1 else 0 :=
  boolWord_of_iff (condLt_iff a b)

theorem aluSltu_eq_ite (a b : Word) : aluSltu a b = if a.toNat < b.toNat then 1 else 0 :=
  boolWord_of_iff (condLtu_iff a b)

/-- Every word but the one of all ones is below it. -/
theorem toNat_lt_toNat_allOnes_iff (a : Word) :
    a.toNat < (0xFFFFFFFF#32).toNat ↔ a ≠ 0xFFFFFFFF#32 :=
  BitVec.lt_allOnes_iff

theorem aluSltu_allOnes (a : Word) :
    aluSltu a 0xFFFFFFFF#32 = if a = 0xFFFFFFFF#32 then 0 else 1 := by
  rw [aluSltu_eq_ite, if_congr (toNat_lt_toNat_allOnes_iff a) rfl rfl, ite_not]

theorem aluSll_eq_mul_two_pow (a : Word) (n : ShiftAmount) :
    aluSll a n = BitVec.ofNat 32 (a.toNat * 2 ^ n.val) := by
  apply BitVec.eq_of_toNat_eq
  rw [aluSll, BitVec.toNat_shiftLeft, Nat.shiftLeft_eq, BitVec.toNat_ofNat]

theorem aluSrl_eq_div_two_pow (a : Word) (n : ShiftAmount) :
    aluSrl a n = BitVec.ofNat 32 (a.toNat / 2 ^ n.val) := by
  rw [aluSrl, ← Nat.shiftRight_eq_div_pow, ← BitVec.toNat_ushiftRight, BitVec.ofNat_toNat,
    BitVec.setWidth_eq]

/-- Copies of bit 31 entering are a division rounded down. -/
theorem aluSra_eq_ediv_two_pow (a : Word) (n : ShiftAmount) :
    aluSra a n = BitVec.ofInt 32 (a.toInt / 2 ^ n.val) := by
  rw [aluSra, BitVec.sshiftRight, Int.shiftRight_eq_div_pow]
  norm_cast

/-! ## Immediate instructions -/

/-- What a register write stores may be named by any word equal to it. -/
theorem writeBack_computes_of_eq {v w : Word} (h : v = w) (rd : RegIdx) (s : State) :
    ∃ t, writeBack rd v s = .next t ∧ Computes rd w s t :=
  h ▸ writeBack_computes rd v s

/-- Settles O45: each is one register write of the ALU's result on `x[rs1]` and the immediate; the
bitwise results need no other reading. -/
theorem immediateArithmeticAndLogic : Obligations.ImmediateArithmeticAndLogic :=
  ⟨encodedBy_row (.addi 0 0 0), encodedBy_row (.slti 0 0 0), encodedBy_row (.xori 0 0 0),
    encodedBy_row (.ori 0 0 0), encodedBy_row (.andi 0 0 0), fun rd rs1 imm s =>
      ⟨writeBack_computes_of_eq (aluAdd_eq_ofNat (s.x rs1) imm) rd s,
        writeBack_computes_of_eq (aluSlt_eq_ite (s.x rs1) imm) rd s,
        writeBack_computes rd (s.x rs1 ^^^ imm) s, writeBack_computes rd (s.x rs1 ||| imm) s,
        writeBack_computes rd (s.x rs1 &&& imm) s⟩⟩

/-- Settles O46: the immediate of all ones is the greatest unsigned word. -/
theorem sltiuComparesWithTheSignExtendedImmediate :
    Obligations.SltiuComparesWithTheSignExtendedImmediate :=
  ⟨encodedBy_row (.sltiu 0 0 0), fun rd rs1 imm s =>
    ⟨writeBack_computes_of_eq (aluSltu_eq_ite (s.x rs1) imm) rd s,
      writeBack_computes_of_eq (aluSltu_allOnes (s.x rs1)) rd s⟩⟩

/-- Settles O47: a shift by `n` is a product with `2 ^ n` or a quotient by it. -/
theorem immediateShifts : Obligations.ImmediateShifts :=
  ⟨encodedBy_row (.slli 0 0 0), encodedBy_row (.srli 0 0 0), encodedBy_row (.srai 0 0 0),
    fun rd rs1 n s =>
      ⟨writeBack_computes_of_eq (aluSll_eq_mul_two_pow (s.x rs1) n) rd s,
        writeBack_computes_of_eq (aluSrl_eq_div_two_pow (s.x rs1) n) rd s,
        writeBack_computes_of_eq (aluSra_eq_ediv_two_pow (s.x rs1) n) rd s⟩⟩

end Sys2Proof.Machine

/-! The proofs of the family of spec/45_alu_register.md: the difference as exact arithmetic, a
register shift's distance as a remainder, and one register write for each instruction. -/

namespace Sys2Proof.Machine

/-- The difference is taken in the integers and then narrowed (spec/45_alu_register.md R222). -/
theorem aluSub_eq_ofInt (a b : Word) :
    aluSub a b = BitVec.ofInt 32 ((a.toNat : Int) - b.toNat) := by
  rw [aluSub, BitVec.sub_eq_add_neg, Int.sub_eq_add_neg, BitVec.ofInt_add, BitVec.ofInt_neg]
  simp

/-- The low five bits of a word are its remainder modulo 32 (spec/45_alu_register.md R220). -/
theorem shiftDistance_val (v : Word) : (shiftDistance v).val = v.toNat % 32 := by
  simp [shiftDistance, regOfBits]

/-! ## Shifts by a register -/

theorem aluSll_shiftDistance (a b : Word) :
    aluSll a (shiftDistance b) = BitVec.ofNat 32 (a.toNat * 2 ^ (b.toNat % 32)) := by
  rw [aluSll_eq_mul_two_pow, shiftDistance_val]

theorem aluSrl_shiftDistance (a b : Word) :
    aluSrl a (shiftDistance b) = BitVec.ofNat 32 (a.toNat / 2 ^ (b.toNat % 32)) := by
  rw [aluSrl_eq_div_two_pow, shiftDistance_val]

theorem aluSra_shiftDistance (a b : Word) :
    aluSra a (shiftDistance b) = BitVec.ofInt 32 (a.toInt / 2 ^ (b.toNat % 32)) := by
  rw [aluSra_eq_ediv_two_pow, shiftDistance_val]

/-! ## Register instructions -/

/-- Settles O48: each is one register write of the ALU's result on `x[rs1]` and `x[rs2]`; the
bitwise results need no other reading. -/
theorem registerArithmeticAndLogic : Obligations.RegisterArithmeticAndLogic :=
  ⟨encodedBy_row (.add 0 0 0), encodedBy_row (.sub 0 0 0), encodedBy_row (.xor 0 0 0),
    encodedBy_row (.or 0 0 0), encodedBy_row (.and 0 0 0), fun rd rs1 rs2 s =>
      ⟨writeBack_computes_of_eq (aluAdd_eq_ofNat (s.x rs1) (s.x rs2)) rd s,
        writeBack_computes_of_eq (aluSub_eq_ofInt (s.x rs1) (s.x rs2)) rd s,
        writeBack_computes rd (s.x rs1 ^^^ s.x rs2) s,
        writeBack_computes rd (s.x rs1 ||| s.x rs2) s,
        writeBack_computes rd (s.x rs1 &&& s.x rs2) s⟩⟩

/-- Settles O49: the comparisons and shifts are those of the immediate instructions, a shift's
distance read from `x[rs2]`. -/
theorem registerComparisonsAndShifts : Obligations.RegisterComparisonsAndShifts :=
  ⟨encodedBy_row (.slt 0 0 0), encodedBy_row (.sltu 0 0 0), encodedBy_row (.sll 0 0 0),
    encodedBy_row (.srl 0 0 0), encodedBy_row (.sra 0 0 0), fun rd rs1 rs2 s =>
      ⟨writeBack_computes_of_eq (aluSlt_eq_ite (s.x rs1) (s.x rs2)) rd s,
        writeBack_computes_of_eq (aluSltu_eq_ite (s.x rs1) (s.x rs2)) rd s,
        writeBack_computes_of_eq (aluSll_shiftDistance (s.x rs1) (s.x rs2)) rd s,
        writeBack_computes_of_eq (aluSrl_shiftDistance (s.x rs1) (s.x rs2)) rd s,
        writeBack_computes_of_eq (aluSra_shiftDistance (s.x rs1) (s.x rs2)) rd s⟩⟩

end Sys2Proof.Machine

/-! The proofs of the family of spec/46_multiply_divide.md: the products' halves and the quotients
as exact arithmetic, and DIV and REM as what their ALU result says. -/

namespace Sys2Proof.Machine

theorem signedOverflow_iff {a b : Word} :
    signedOverflow a b = true ↔ a = 0x80000000#32 ∧ b = 0xFFFFFFFF#32 := by
  rw [signedOverflow, Bool.and_eq_true, beq_iff_eq, beq_iff_eq]

/-- Settles O13: what every instruction does, with the operands of R250 written out. -/
theorem execStopsOnlyOnRefusedOverflow : Obligations.ExecStopsOnlyOnRefusedOverflow := by
  intro i s
  rcases exec_answers_or_refuses i s with hnext | ⟨rd, rs1, rs2, hi, hover, hrefused⟩ |
    ⟨rd, rs1, rs2, hi, hover, hrefused⟩
  · exact .inl hnext
  · obtain ⟨ha, hb⟩ := signedOverflow_iff.1 hover
    exact .inr (.inl ⟨rd, rs1, rs2, hi, ha, hb, hrefused⟩)
  · obtain ⟨ha, hb⟩ := signedOverflow_iff.1 hover
    exact .inr (.inr ⟨rd, rs1, rs2, hi, ha, hb, hrefused⟩)

/-! ## Products -/

theorem aluMul_eq_ofInt (a b : Word) : aluMul a b = BitVec.ofInt 32 (a.toInt * b.toInt) := by
  rw [BitVec.ofInt_mul, BitVec.ofInt_toInt, BitVec.ofInt_toInt, aluMul]

/-- Bits 63:32 of a number are its quotient by `2 ^ 32`, rounded down
(spec/46_multiply_divide.md R242). -/
theorem productHigh_eq_ediv (p : Int) : productHigh p = BitVec.ofInt 32 (p / 2 ^ 32) := by
  apply BitVec.eq_of_toNat_eq
  rw [productHigh, BitVec.extractLsb'_toNat, BitVec.toNat_ofInt, BitVec.toNat_ofInt,
    Nat.shiftRight_eq_div_pow]
  omega

theorem aluMulhu_eq_ofNat (a b : Word) :
    aluMulhu a b = BitVec.ofNat 32 (a.toNat * b.toNat / 2 ^ 32) := by
  rw [aluMulhu, productHigh_eq_ediv, ← BitVec.ofInt_natCast]
  norm_cast

/-- Settles O50: each is one register write of a half of the exact product. -/
theorem multiplyLowAndHigh : Obligations.MultiplyLowAndHigh :=
  ⟨encodedBy_row (.mul 0 0 0), encodedBy_row (.mulh 0 0 0), encodedBy_row (.mulhsu 0 0 0),
    encodedBy_row (.mulhu 0 0 0), fun rd rs1 rs2 s =>
      ⟨writeBack_computes_of_eq (aluMul_eq_ofInt (s.x rs1) (s.x rs2)) rd s,
        writeBack_computes_of_eq (productHigh_eq_ediv ((s.x rs1).toInt * (s.x rs2).toInt)) rd s,
        writeBack_computes_of_eq (productHigh_eq_ediv ((s.x rs1).toInt * (s.x rs2).toNat)) rd s,
        writeBack_computes_of_eq (aluMulhu_eq_ofNat (s.x rs1) (s.x rs2)) rd s⟩⟩

/-! ## Unsigned division -/

/-- Settles O51: each is one register write of the ALU's result, whose two cases are R246's and
R248's. -/
theorem unsignedDivideAndRemainder : Obligations.UnsignedDivideAndRemainder :=
  ⟨encodedBy_row (.divu 0 0 0), encodedBy_row (.remu 0 0 0), fun rd rs1 rs2 s =>
    ⟨writeBack_computes rd (aluDivu (s.x rs1) (s.x rs2)) s,
      writeBack_computes rd (aluRemu (s.x rs1) (s.x rs2)) s⟩⟩

/-! ## The ALU's signed quotient and remainder, by operands -/

theorem aluDiv_zero (p : OpenResult) (a : Word) : aluDiv p a 0 = some 0x7FFFFFFF#32 := rfl

theorem aluRem_zero (p : OpenResult) (a : Word) : aluRem p a 0 = some a := rfl

theorem aluDiv_overflow (p : OpenResult) :
    aluDiv p 0x80000000#32 0xFFFFFFFF#32 = openResult p := rfl

theorem aluRem_overflow (p : OpenResult) :
    aluRem p 0x80000000#32 0xFFFFFFFF#32 = openResult p := rfl

section Exact

variable {a b : Word} (hb : b ≠ 0) (hover : ¬ (a = 0x80000000#32 ∧ b = 0xFFFFFFFF#32))

include hb hover

theorem aluDiv_eq_tdiv (p : OpenResult) :
    aluDiv p a b = some (BitVec.ofInt 32 (a.toInt.tdiv b.toInt)) := by
  rw [aluDiv, if_neg hb, if_neg (mt signedOverflow_iff.1 hover)]

theorem aluRem_eq_tmod (p : OpenResult) :
    aluRem p a b = some (BitVec.ofInt 32 (a.toInt.tmod b.toInt)) := by
  rw [aluRem, if_neg hb, if_neg (mt signedOverflow_iff.1 hover), ← Int.tmod_def]

end Exact

/-! ## DIV and REM by their ALU result -/

section ByResult

variable {rs1 rs2 : RegIdx} {s : State} {v : Word}

theorem div_computes (hv : aluDiv s.params.divOverflow (s.x rs1) (s.x rs2) = some v)
    (rd : RegIdx) : ∃ t, exec (.div rd rs1 rs2) s = .next t ∧ Computes rd v s t := by
  simp only [exec, execDiv, hv]
  exact writeBack_computes rd v s

theorem rem_computes (hv : aluRem s.params.remOverflow (s.x rs1) (s.x rs2) = some v)
    (rd : RegIdx) : ∃ t, exec (.rem rd rs1 rs2) s = .next t ∧ Computes rd v s t := by
  simp only [exec, execRem, hv]
  exact writeBack_computes rd v s

theorem div_refuses (hv : aluDiv s.params.divOverflow (s.x rs1) (s.x rs2) = none)
    (rd : RegIdx) : exec (.div rd rs1 rs2) s = .refused .divOverflow := by
  simp only [exec, execDiv, hv]

theorem rem_refuses (hv : aluRem s.params.remOverflow (s.x rs1) (s.x rs2) = none)
    (rd : RegIdx) : exec (.rem rd rs1 rs2) s = .refused .remOverflow := by
  simp only [exec, execRem, hv]

end ByResult

/-- Settles O52: a zero divisor is asked for before the operands of R250. -/
theorem signedDivideAndRemainderByZero : Obligations.SignedDivideAndRemainderByZero :=
  ⟨encodedBy_row (.div 0 0 0), encodedBy_row (.rem 0 0 0), fun rd rs1 _ s hzero =>
    ⟨div_computes (hzero ▸ aluDiv_zero s.params.divOverflow (s.x rs1)) rd,
      rem_computes (hzero ▸ aluRem_zero s.params.remOverflow (s.x rs1)) rd⟩⟩

/-- Settles O54: on these operands the ALU's result is the parameter's. -/
theorem signedOverflowFollowsItsParameter : Obligations.SignedOverflowFollowsItsParameter := by
  intro rd rs1 rs2 s ha hb
  have hdiv : aluDiv s.params.divOverflow (s.x rs1) (s.x rs2) =
      openResult s.params.divOverflow := by
    rw [ha, hb, aluDiv_overflow]
  have hrem : aluRem s.params.remOverflow (s.x rs1) (s.x rs2) =
      openResult s.params.remOverflow := by
    rw [ha, hb, aluRem_overflow]
  exact ⟨fun v hp => div_computes (hdiv.trans (congrArg openResult hp)) rd,
    fun hp => div_refuses (hdiv.trans (congrArg openResult hp)) rd,
    fun v hp => rem_computes (hrem.trans (congrArg openResult hp)) rd,
    fun hp => rem_refuses (hrem.trans (congrArg openResult hp)) rd⟩

/-! ## The law of signed division -/

/-- Off the operands of R250 the quotient rounded toward zero is a signed 32-bit value. -/
theorem tdiv_toInt_bounds {a b : Word} (hover : ¬ (a = 0x80000000#32 ∧ b = 0xFFFFFFFF#32)) :
    -(2 ^ 31) ≤ a.toInt.tdiv b.toInt ∧ a.toInt.tdiv b.toInt < 2 ^ 31 := by
  rw [← BitVec.toInt_sdiv_of_ne_or_ne a b (not_and_or.1 hover)]
  exact ⟨BitVec.le_toInt _, BitVec.toInt_lt⟩

theorem abs_tmod_lt_abs (a : Int) {b : Int} (hb : b ≠ 0) : |a.tmod b| < |b| := by
  rw [Int.abs_eq_natAbs, Int.abs_eq_natAbs, Int.natAbs_tmod, Nat.cast_lt]
  exact Nat.mod_lt _ (Int.natAbs_pos.2 hb)

theorem tmod_nonpos_of_nonpos {a : Int} (b : Int) (ha : a ≤ 0) : a.tmod b ≤ 0 := by
  rw [← neg_nonneg, ← Int.neg_tmod]
  exact Int.tmod_nonneg b (neg_nonneg.2 ha)

/-- Settles O53: the quotient and remainder of division rounded toward zero. -/
theorem signedDivisionLaw : Obligations.SignedDivisionLaw := by
  intro rd rs1 rs2 s hb hover
  have hdivisor : (s.x rs2).toInt ≠ 0 := fun h => hb (BitVec.eq_of_toInt_eq h)
  obtain ⟨hlo, hhi⟩ := tdiv_toInt_bounds hover
  exact ⟨(s.x rs1).toInt.tdiv (s.x rs2).toInt, (s.x rs1).toInt.tmod (s.x rs2).toInt,
    (Int.mul_tdiv_add_tmod _ _).symm, abs_tmod_lt_abs _ hdivisor, Int.tmod_nonneg _,
    tmod_nonpos_of_nonpos _, hlo, hhi, div_computes (aluDiv_eq_tdiv hb hover _) rd,
    rem_computes (aluRem_eq_tmod hb hover _) rd⟩

end Sys2Proof.Machine

/-! The proofs of the family of spec/47_system.md: what each host service answers, with its frame,
and the bytes service 4 reads from the ROM. -/

namespace Sys2Proof.Machine

/-! ## No operation -/

/-- A commit of nothing only advances `pc`: a service number without a service, and EBREAK
(spec/47_system.md R267, R270). -/
theorem commit_nothing_onlyAdvances (s : State) : OnlyAdvances s (commit {} s) :=
  ⟨sameRegs_commit s rfl, commit_pc_of_pcLoad_none s rfl, rfl, commit_frame s rfl rfl rfl⟩

/-- Settles O60: the encoding is EBREAK's row, which the standard word is not in, and executing it
commits nothing. -/
theorem ebreakDoesNothing : Obligations.EbreakDoesNothing :=
  ⟨encodedBy_row .ebreak, rfl, fun s => ⟨_, rfl, commit_nothing_onlyAdvances s⟩⟩

/-- Settles O59: the whole of x17 is compared with each of the four numbers. -/
theorem ecallOtherServicesDoNothing : Obligations.EcallOtherServicesDoNothing := by
  intro s h1 h2 h4 h10
  have hecall : exec .ecall s = .next (commit {} s) := by
    simp only [exec, execEcall, regA7, h1, h2, h4, h10, if_false]
  exact ⟨_, hecall, commit_nothing_onlyAdvances s⟩

/-! ## The service a number selects -/

section
variable {s : State}

theorem ecall_reads (h : s.x regA7 = 1) : exec .ecall s = serviceRead s := by
  simp [exec, execEcall, h]

theorem ecall_writes (h : s.x regA7 = 2) : exec .ecall s = serviceWrite s := by
  simp [exec, execEcall, h]

theorem ecall_writesRom (h : s.x regA7 = 4) : exec .ecall s = serviceWriteRom s := by
  simp [exec, execEcall, h]

end

/-! ## Service 1 -/

section
variable {s : State}

theorem serviceRead_of_byte {b : Byte} {rest : List Byte} (h : s.hostInput = b :: rest) :
    serviceRead s = .next { commit { rdWrite := some (regA0, b.setWidth 32),
                                     calls := [.readByte (b.setWidth 32)] } s
                            with hostInput := rest } := by
  simp only [serviceRead, h]

theorem serviceRead_of_no_byte (h : s.hostInput = []) (hopen : s.hostInputEnded = false) :
    serviceRead s = .next s := by
  simp [serviceRead, h, hopen]

theorem serviceRead_of_ended (h : s.hostInput = []) (hended : s.hostInputEnded = true) :
    serviceRead s = .next (commit { rdWrite := some (regA0, Config.endOfInput s.freeCount),
                                    calls := [.readByte (Config.endOfInput s.freeCount)],
                                    freeDrawn := 1 } s) := by
  simp [serviceRead, h, hended]

end

/-- A commit that stages nothing but a word for x10 and the call that gave it, free values apart. -/
theorem readsByte_commit {e : Effects} {v : Word} (s : State)
    (hrd : e.rdWrite = some (regA0, v)) (hcalls : e.calls = [.readByte v])
    (hram : e.ramWrite = none) (hpc : e.pcLoad = none) (hredirect : e.redirect = false) :
    ReadsByte v s (commit e s) := by
  refine ⟨regsBut_commit s hrd, ?_, commit_pc_of_pcLoad_none s hpc, ?_, rfl, ⟨fun a => ?_,
    fun _ => rfl⟩, rfl, rfl⟩
  · rw [commit_events, hcalls]
  · rw [commit_bubble, hredirect]
    rfl
  · rw [commit_ram_of_ramWrite_none s hram]

/-- With a byte ready, service 1 takes it (spec/47_system.md R263). -/
theorem ecall_reads_ready_byte {s : State} {b : Byte} {rest : List Byte} (hservice : s.x regA7 = 1)
    (h : s.hostInput = b :: rest) :
    ∃ t, exec .ecall s = .next t ∧ ReadsByte (b.setWidth 32) s t ∧ t.hostInput = rest ∧
      t.freeCount = s.freeCount :=
  ⟨_, (ecall_reads hservice).trans (serviceRead_of_byte h),
    readsByte_commit s rfl rfl rfl rfl rfl, rfl, rfl⟩

/-- Settles O55: the encoding is ECALL's row. The wait ends because a supplied byte is a ready byte
and supplying it touches the input alone. -/
theorem ecallReadsAByte : Obligations.EcallReadsAByte := by
  refine ⟨encodedBy_row .ecall, fun s hservice => ⟨fun b rest => ecall_reads_ready_byte hservice,
    fun hempty hopen => ⟨?_, fun b => ?_⟩, fun hempty hended => ?_⟩⟩
  · exact (ecall_reads hservice).trans (serviceRead_of_no_byte hempty hopen)
  · have hready : (s.hostSupply b).hostInput = [b] := by
      rw [hostSupply_hostInput, hempty, List.nil_append]
    exact ecall_reads_ready_byte (s := s.hostSupply b) hservice hready
  · exact ⟨_, _, (ecall_reads hservice).trans (serviceRead_of_ended hempty hended),
      readsByte_commit s rfl rfl rfl rfl rfl, hempty, rfl⟩

/-! ## Services 2 and 10 -/

theorem lowByte_eq_ofNat (w : Word) : w.extractLsb' 0 8 = BitVec.ofNat 8 (w.toNat % 256) := by
  apply BitVec.eq_of_toNat_eq
  simp

/-- Host calls alone leave all but `pc` and the events unchanged. -/
theorem commit_calls_ecallKeeps (calls : List Event) (s : State) :
    EcallKeeps s (commit { calls := calls } s) :=
  ⟨sameRegs_commit s rfl, rfl, ⟨fun _ => rfl, fun _ => rfl⟩, rfl, rfl, rfl, rfl⟩

/-- Settles O56: service 2 commits one host call. -/
theorem ecallWritesTheLowByte : Obligations.EcallWritesTheLowByte := by
  intro s hservice
  obtain ⟨hregs, hbubble, hmemory, hparams, hinput⟩ :=
    commit_calls_ecallKeeps [.writeByte ((s.x regA0).extractLsb' 0 8)] s
  refine ⟨_, ecall_writes hservice, ?_, hregs, commit_pc_of_pcLoad_none s rfl, hbubble, hmemory,
    ⟨rfl, hparams⟩, hinput⟩
  rw [commit_events, lowByte_eq_ofNat]
  rfl

/-- An end of the run that only sets the status and records calls. -/
theorem events_status_ecallKeeps (events : List Event) (status : Status) (s : State) :
    EcallKeeps s { s with events := events, status := status } :=
  ⟨fun _ => rfl, rfl, ⟨fun _ => rfl, fun _ => rfl⟩, rfl, rfl, rfl, rfl⟩

/-- Settles O58: service 10 sets the status and records the call. -/
theorem ecallExits : Obligations.EcallExits :=
  fun s hservice => ⟨_, ecall_exits hservice, rfl, rfl, events_status_ecallKeeps _ _ s⟩

/-! ## Service 4 -/

/-- Bits 19:12 of `count` ROM words from word `i` on, in order. -/
def packedRomBytes (s : State) (i count : Nat) : List Byte :=
  (List.range count).map fun k => (s.rom.wordAt (i + k)).extractLsb' 12 8

theorem packedRomBytes_succ (s : State) (i count : Nat) : packedRomBytes s i (count + 1) =
    (s.rom.wordAt i).extractLsb' 12 8 :: packedRomBytes s (i + 1) count := by
  simp only [packedRomBytes, List.range_succ_eq_map, List.map_cons, List.map_map, Nat.add_zero,
    Function.comp_def, Nat.succ_eq_add_one, Nat.add_right_comm i 1, Nat.add_assoc i]

theorem writeByte_packedRomBytes (s : State) (i count : Nat) :
    (packedRomBytes s i count).map Event.writeByte = (List.range count).map
      fun k => .writeByte ((s.rom.wordAt (i + k)).extractLsb' 12 8) :=
  List.map_map

/-- The bytes come from the words asked for that lie inside the ROM. -/
theorem packedBytes_bytes (s : State) (n : Nat) : ∀ i : Nat,
    (packedBytes s i n).1 = packedRomBytes s i (min n (s.params.romWords - i)) := by
  induction n with
  | zero =>
    intro i
    rw [Nat.zero_min]
    rfl
  | succ n ih =>
    intro i
    rcases romWord_cases s i with ⟨hi, hword⟩ | ⟨hi, hword⟩
    · have hcount : min (n + 1) (s.params.romWords - i) =
          min n (s.params.romWords - (i + 1)) + 1 := by omega
      rw [hcount, packedRomBytes_succ, ← ih]
      simp only [packedBytes, hword]
    · rw [Nat.sub_eq_zero_of_le hi, Nat.min_zero]
      simp only [packedBytes, hword]
      rfl

section
variable {s : State} {i n : Nat}

theorem packedBytes_of_inside (h : n = 0 ∨ i + n ≤ s.params.romWords) :
    packedBytes s i n = (packedRomBytes s i n, none) := by
  have hcount : min n (s.params.romWords - i) = n := by omega
  refine Prod.ext ((packedBytes_bytes s n i).trans (by rw [hcount])) ?_
  refine Option.eq_none_iff_forall_ne_some.2 fun f hf => ?_
  obtain ⟨hsome, hpast, -⟩ := (packedBytes_fault_iff s f n i).1 hf
  omega

theorem packedBytes_of_past (hsome : n ≠ 0) (hpast : s.params.romWords < i + n) :
    packedBytes s i n = (packedRomBytes s i (s.params.romWords - i),
      some (.indexFault .rom (max i s.params.romWords))) := by
  have hcount : min n (s.params.romWords - i) = s.params.romWords - i := by omega
  exact Prod.ext ((packedBytes_bytes s n i).trans (by rw [hcount]))
    ((packedBytes_fault_iff s _ n i).2 ⟨hsome, hpast, rfl⟩)

end

section
variable {s : State} {bytes : List Byte}

theorem serviceWriteRom_of_no_fault
    (h : packedBytes s (wordIndex (s.x regA0)) (s.x regA1).toNat = (bytes, none)) :
    serviceWriteRom s = .next (commit { calls := bytes.map .writeByte } s) := by
  simp only [serviceWriteRom, h]

theorem serviceWriteRom_of_fault {f : FaultRecord}
    (h : packedBytes s (wordIndex (s.x regA0)) (s.x regA1).toNat = (bytes, some f)) :
    serviceWriteRom s = raiseFault f { s with events := s.events ++ bytes.map .writeByte } := by
  simp only [serviceWriteRom, h]

end

/-- Settles O57: the words asked for all lie inside the ROM, or one lies past it and the fault is
taken with the bytes before it written. -/
theorem ecallWritesPackedRomBytes : Obligations.EcallWritesPackedRomBytes := by
  intro s hservice
  rw [← wordIndex_eq]
  refine ⟨fun hinside => ?_, fun hsome hpast => ?_⟩
  · have hwrite := serviceWriteRom_of_no_fault (packedBytes_of_inside hinside)
    rw [writeByte_packedRomBytes] at hwrite
    exact ⟨_, (ecall_writesRom hservice).trans hwrite, rfl, rfl, commit_pc_of_pcLoad_none s rfl,
      commit_calls_ecallKeeps _ s⟩
  · have hfault := serviceWriteRom_of_fault (packedBytes_of_past hsome hpast)
    rw [writeByte_packedRomBytes, raiseFault_eq] at hfault
    exact ⟨_, (ecall_writesRom hservice).trans hfault, rfl, rfl, rfl, events_status_ecallKeeps _ _ s⟩

end Sys2Proof.Machine

/-! The proofs of the family of spec/60_exceptions.md: where a fault comes from and what it leaves
unchanged, and which instructions the host's input can reach. -/

namespace Sys2Proof.Machine

/-! ## Faults of the fetch -/

theorem fetchInstr_of_past_rom {s : State} (h : s.params.romWords ≤ wordIndex s.pc) :
    fetchInstr s = .error (.indexFault .rom (wordIndex s.pc)) := by
  simp only [fetchInstr, fetchWord, romRead, romWord, if_neg h.not_gt]

/-- The two faults of a fetch, the index looked at first (spec/60_exceptions.md R287). -/
theorem fetchInstr_error_cases {s : State} {f : FaultRecord} (h : fetchInstr s = .error f) :
    (f = .indexFault .rom (wordIndex s.pc) ∧ s.params.romWords ≤ wordIndex s.pc) ∨
    (f = .decodeFault (s.rom.wordAt (wordIndex s.pc)) ∧
      ∃ why, decodeWord (s.rom.wordAt (wordIndex s.pc)) = .error why) := by
  rcases Nat.lt_or_ge (wordIndex s.pc) s.params.romWords with hrom | hpast
  · cases hdecode : decodeWord (s.rom.wordAt (wordIndex s.pc)) with
    | ok i => cases h.symm.trans (fetchInstr_of_ok hrom hdecode)
    | error why =>
      cases h.symm.trans (fetchInstr_of_error hrom hdecode)
      exact .inr ⟨rfl, why, rfl⟩
  · cases h.symm.trans (fetchInstr_of_past_rom hpast)
    exact .inl ⟨rfl, hpast⟩

theorem step_faults_of_fetch_fault {s : State} {f : FaultRecord} (hready : s.Ready)
    (h : fetchInstr s = .error f) : ∃ t, step s = .next t ∧ Faults f s t := by
  rw [step_of_fetch_fault hready h]
  exact raiseFault_faults f s

/-- Settles O7: a fetch past the ROM faults before there is a word to decode. -/
theorem stepTakesTheFirstFetchFault : Obligations.StepTakesTheFirstFetchFault := by
  intro s hready
  rw [← wordIndex_eq]
  exact ⟨fun hpast => step_faults_of_fetch_fault hready (fetchInstr_of_past_rom hpast),
    fun hrom ⟨_, hwhy⟩ => step_faults_of_fetch_fault hready (fetchInstr_of_error hrom hwhy)⟩

/-! ## Faults of an instruction -/

section
variable {s t : State} {f : FaultRecord} (hlive : s.Live)
include hlive

theorem status_ne_faulted_of_eq (h : t.status = s.status) : t.status ≠ .faulted f := by
  rw [h, hlive]
  exact Status.noConfusion

theorem transfer_next_faulted {target : Word} {link : Option (RegIdx × Word)}
    (h : transfer target link s = .next t) (hf : t.status = .faulted f) :
    f = .alignmentFault target ∧ target.toNat % 4 ≠ 0 := by
  cases ha : aligned target with
  | true =>
    cases h.symm.trans (transfer_of_aligned link s ha)
    exact absurd hf (status_ne_faulted_of_eq hlive rfl)
  | false =>
    cases h.symm.trans (transfer_of_not_aligned link s ha)
    cases hf
    exact ⟨rfl, (not_aligned_iff target).1 ha⟩

theorem branch_next_faulted {cond : Word → Word → Bool} {rs1 rs2 : RegIdx} {imm : Word}
    (h : branch cond rs1 rs2 imm s = .next t) (hf : t.status = .faulted f) :
    f = .alignmentFault (pcRelative imm s) ∧ (pcRelative imm s).toNat % 4 ≠ 0 := by
  cases ha : aligned (pcRelative imm s) with
  | true =>
    cases hc : cond (s.x rs1) (s.x rs2) with
    | true =>
      cases h.symm.trans (branch_taken ha hc)
      exact absurd hf (status_ne_faulted_of_eq hlive rfl)
    | false =>
      cases h.symm.trans (branch_untaken ha hc)
      exact absurd hf (status_ne_faulted_of_eq hlive rfl)
  | false =>
    cases h.symm.trans (branch_of_not_aligned cond rs1 rs2 ha)
    cases hf
    exact ⟨rfl, (not_aligned_iff _).1 ha⟩

theorem load_next_faulted {rd rs1 : RegIdx} {imm : Word}
    (h : load rd rs1 imm s = .next t) (hf : t.status = .faulted f) :
    f = .indexFault .ram ((effectiveAddress rs1 imm s).toNat / 4) ∧
      s.params.ramWords ≤ (effectiveAddress rs1 imm s).toNat / 4 := by
  rw [← wordIndex_eq]
  rcases load_cases rd rs1 imm s with ⟨-, hend⟩ | ⟨hpast, hend⟩
  · cases h.symm.trans hend
    exact absurd hf (status_ne_faulted_of_eq hlive rfl)
  · cases h.symm.trans hend
    cases hf
    exact ⟨rfl, hpast⟩

theorem store_next_faulted {rs1 rs2 : RegIdx} {imm : Word}
    (h : store rs1 rs2 imm s = .next t) (hf : t.status = .faulted f) :
    f = .indexFault .ram ((effectiveAddress rs1 imm s).toNat / 4) ∧
      s.params.ramWords ≤ (effectiveAddress rs1 imm s).toNat / 4 ∧
      (effectiveAddress rs1 imm s).toNat < 0x00400000 := by
  rw [← wordIndex_eq]
  rcases store_cases rs1 rs2 imm s with ⟨-, hend⟩ | ⟨-, -, hend⟩ | ⟨hbelow, hpast, hend⟩
  · cases h.symm.trans hend
    exact absurd hf (status_ne_faulted_of_eq hlive rfl)
  · cases h.symm.trans hend
    exact absurd hf (status_ne_faulted_of_eq hlive rfl)
  · cases h.symm.trans hend
    cases hf
    exact ⟨rfl, hpast, hbelow⟩

/-- Of the services only the fourth faults, and it keeps the bytes it had written
(spec/47_system.md R265). -/
theorem ecall_next_faulted_eq (h : exec .ecall s = .next t) (hf : t.status = .faulted f) :
    s.x regA7 = 4 ∧ ∃ bytes : List Byte,
      t = { s with events := s.events ++ bytes.map .writeByte, status := .faulted f } := by
  rcases ecall_next_cases h with ⟨-, b, rest, -, rfl⟩ | ⟨-, -, -, rfl⟩ | ⟨-, -, -, rfl⟩ |
    ⟨bytes, rfl⟩ | ⟨hservice, bytes, g, rfl⟩ | ⟨-, rfl⟩
  · exact absurd hf (status_ne_faulted_of_eq hlive rfl)
  · exact absurd hf (status_ne_faulted_of_eq hlive rfl)
  · exact absurd hf (status_ne_faulted_of_eq hlive rfl)
  · exact absurd hf (status_ne_faulted_of_eq hlive rfl)
  · cases hf
    exact ⟨hservice, bytes, rfl⟩
  · cases hf

/-- Service 4 faults when a word it asks for lies past the ROM, and records the first such word. -/
theorem ecall_next_faulted (h : exec .ecall s = .next t) (hf : t.status = .faulted f) :
    s.x regA7 = 4 ∧ (s.x regA1).toNat ≠ 0 ∧
      s.params.romWords < wordIndex (s.x regA0) + (s.x regA1).toNat ∧
      f = .indexFault .rom (max (wordIndex (s.x regA0)) s.params.romWords) := by
  obtain ⟨hservice, -⟩ := ecall_next_faulted_eq hlive h hf
  rw [ecall_writesRom hservice] at h
  obtain ⟨bytes, fault, hpacked⟩ :
      ∃ bytes fault, packedBytes s (wordIndex (s.x regA0)) (s.x regA1).toNat = (bytes, fault) :=
    ⟨_, _, rfl⟩
  cases fault with
  | none =>
    cases h.symm.trans (serviceWriteRom_of_no_fault hpacked)
    exact absurd hf (status_ne_faulted_of_eq hlive rfl)
  | some g =>
    cases h.symm.trans (serviceWriteRom_of_fault hpacked)
    cases hf
    exact ⟨hservice, (packedBytes_fault_iff s f _ _).1 (congrArg Prod.snd hpacked)⟩

/-- The faults of an instruction: of a transfer by its target, of a load or store by its address,
of service 4 by the words it asks for. -/
theorem exec_next_faulted {i : Instr} (h : exec i s = .next t) (hf : t.status = .faulted f) :
    (∃ target, transferTarget i s = some target ∧ f = .alignmentFault target ∧
      target.toNat % 4 ≠ 0) ∨
    (∃ addr, dataAddress i s = some addr ∧ f = .indexFault .ram (addr.toNat / 4) ∧
      s.params.ramWords ≤ addr.toNat / 4 ∧ (isStore i = true → addr.toNat < 0x00400000)) ∨
    (i = .ecall ∧ s.x regA7 = 4 ∧ (s.x regA1).toNat ≠ 0 ∧
      s.params.romWords < wordIndex (s.x regA0) + (s.x regA1).toNat ∧
      f = .indexFault .rom (max (wordIndex (s.x regA0)) s.params.romWords)) := by
  cases i with
  | auipc | jal | jalr => exact .inl ⟨_, rfl, transfer_next_faulted hlive h hf⟩
  | beq | bne | blt | bge | bltu | bgeu => exact .inl ⟨_, rfl, branch_next_faulted hlive h hf⟩
  | lb | lh | lw | lbu | lhu =>
    obtain ⟨hfault, hpast⟩ := load_next_faulted hlive h hf
    exact .inr (.inl ⟨_, rfl, hfault, hpast, Bool.noConfusion⟩)
  | sb | sh | sw =>
    obtain ⟨hfault, hpast, hbelow⟩ := store_next_faulted hlive h hf
    exact .inr (.inl ⟨_, rfl, hfault, hpast, fun _ => hbelow⟩)
  | ecall => exact .inr (.inr ⟨rfl, ecall_next_faulted hlive h hf⟩)
  | div rd rs1 rs2 =>
    cases hv : aluDiv s.params.divOverflow (s.x rs1) (s.x rs2) with
    | some v =>
      obtain ⟨u, hu, -, -, -, -, -, hstatus, -⟩ := div_computes hv rd
      cases h.symm.trans hu
      exact absurd hf (status_ne_faulted_of_eq hlive hstatus)
    | none => cases h.symm.trans (div_refuses hv rd)
  | rem rd rs1 rs2 =>
    cases hv : aluRem s.params.remOverflow (s.x rs1) (s.x rs2) with
    | some v =>
      obtain ⟨u, hu, -, -, -, -, -, hstatus, -⟩ := rem_computes hv rd
      cases h.symm.trans hu
      exact absurd hf (status_ne_faulted_of_eq hlive hstatus)
    | none => cases h.symm.trans (rem_refuses hv rd)
  | lui | addi | slti | sltiu | xori | ori | andi | slli | srli | srai
  | add | sub | sll | slt | sltu | xor | srl | sra | or | and
  | mul | mulh | mulhsu | mulhu | divu | remu | ebreak =>
    cases h
    exact absurd hf (status_ne_faulted_of_eq hlive rfl)

/-- A faulting instruction sets the status, and service 4 alone keeps the bytes it had written
(spec/60_exceptions.md R288, spec/47_system.md R265). -/
theorem exec_next_faulted_eq {i : Instr} (h : exec i s = .next t) (hf : t.status = .faulted f) :
    ∃ bytes : List Byte, (i ≠ .ecall → bytes = []) ∧
      t = { s with events := s.events ++ bytes.map .writeByte, status := .faulted f } := by
  by_cases hi : i = .ecall
  · subst hi
    obtain ⟨-, bytes, ht⟩ := ecall_next_faulted_eq hlive h hf
    exact ⟨bytes, fun hnot => absurd rfl hnot, ht⟩
  · rcases exec_next_cases hi h with ⟨e, -, rfl⟩ | ⟨g, rfl⟩
    · exact absurd hf (status_ne_faulted_of_eq hlive rfl)
    · cases hf
      exact ⟨[], fun _ => rfl, by rw [List.map_nil, List.append_nil]⟩

end

/-- Settles O15: a tick faults at the fetch or in the instruction, and each lists its faults. -/
theorem faultsHaveOnlyTheThreeCauses : Obligations.FaultsHaveOnlyTheThreeCauses := by
  intro s t f hlive h hf
  rw [← wordIndex_eq, ← wordIndex_eq]
  obtain ⟨-, ⟨-, rfl⟩ | ⟨-, g, hfetch, rfl⟩ | ⟨-, i, hfetch, hexec⟩⟩ := step_next_cases h
  · exact absurd hf (status_ne_faulted_of_eq hlive (bubbleTick_status s))
  · cases hf
    rcases fetchInstr_error_cases hfetch with hindex | ⟨hdecode, why, hwhy⟩
    · exact .inl hindex
    · exact .inr (.inl ⟨hdecode, no_row_of_error hwhy⟩)
  · rcases exec_next_faulted hlive hexec hf with ⟨target, htarget⟩ | ⟨addr, haddr⟩ |
      ⟨rfl, hservice⟩
    · exact .inr (.inr (.inl ⟨i, target, hfetch, htarget⟩))
    · exact .inr (.inr (.inr (.inl ⟨i, addr, hfetch, haddr⟩)))
    · exact .inr (.inr (.inr (.inr ⟨hfetch, hservice⟩)))

/-- Settles O16: the status is set and bytes are recorded, none by an instruction other than
ECALL. -/
theorem faultingInstructionCommitsNothing : Obligations.FaultingInstructionCommitsNothing := by
  intro i s t f hlive h hf
  obtain ⟨bytes, hnone, rfl⟩ := exec_next_faulted_eq hlive h hf
  obtain ⟨hregs, hbubble, hkept⟩ :=
    events_status_ecallKeeps (s.events ++ bytes.map .writeByte) (.faulted f) s
  obtain ⟨hmemory, hparams, hinput, hended, hfree⟩ := hkept
  refine ⟨hregs, rfl, hbubble, hmemory, hparams, hinput, hended, hfree, fun hi => ?_, bytes, rfl⟩
  simp only [hnone hi, List.map_nil, List.append_nil]

/-! ## What the host has ready to read -/

/-- The state with another host input. -/
def State.withInput (q : List Byte) (ended : Bool) (s : State) : State :=
  { s with hostInput := q, hostInputEnded := ended }

/-- The answer with its next state, if it has one, changed by `g`. -/
def mapNext (g : State → State) : Result → Result
  | .next t => .next (g t)
  | .fault f => .fault f
  | .refused r => .refused r

section
variable (q : List Byte) (ended : Bool) (s : State)

theorem transfer_withInput (target : Word) (link : Option (RegIdx × Word)) :
    transfer target link (s.withInput q ended) =
      mapNext (State.withInput q ended) (transfer target link s) := by
  cases ha : aligned target with
  | true =>
    rw [transfer_of_aligned _ _ ha, transfer_of_aligned _ _ ha]
    rfl
  | false =>
    rw [transfer_of_not_aligned _ _ ha, transfer_of_not_aligned _ _ ha]
    rfl

theorem branch_withInput (cond : Word → Word → Bool) (rs1 rs2 : RegIdx) (imm : Word) :
    branch cond rs1 rs2 imm (s.withInput q ended) =
      mapNext (State.withInput q ended) (branch cond rs1 rs2 imm s) := by
  simp only [branch, apply_ite (mapNext _), ← transfer_withInput]
  rfl

theorem load_withInput (rd rs1 : RegIdx) (imm : Word) :
    load rd rs1 imm (s.withInput q ended) =
      mapNext (State.withInput q ended) (load rd rs1 imm s) := by
  have hread : memRead (s.withInput q ended) (effectiveAddress rs1 imm (s.withInput q ended)) =
      memRead s (effectiveAddress rs1 imm s) := rfl
  rw [load, load, hread]
  cases memRead s (effectiveAddress rs1 imm s) <;> rfl

theorem store_withInput (rs1 rs2 : RegIdx) (imm : Word) :
    store rs1 rs2 imm (s.withInput q ended) =
      mapNext (State.withInput q ended) (store rs1 rs2 imm s) := by
  have hwrite : memWrite (s.withInput q ended)
      (effectiveAddress rs1 imm (s.withInput q ended)) ((s.withInput q ended).x rs2) =
      memWrite s (effectiveAddress rs1 imm s) (s.x rs2) := rfl
  rw [store, store, hwrite]
  cases memWrite s (effectiveAddress rs1 imm s) (s.x rs2) <;> rfl

theorem div_withInput (rd rs1 rs2 : RegIdx) :
    execDiv rd rs1 rs2 (s.withInput q ended) =
      mapNext (State.withInput q ended) (execDiv rd rs1 rs2 s) := by
  have hresult : aluDiv (s.withInput q ended).params.divOverflow ((s.withInput q ended).x rs1)
      ((s.withInput q ended).x rs2) = aluDiv s.params.divOverflow (s.x rs1) (s.x rs2) := rfl
  rw [execDiv, execDiv, hresult]
  cases aluDiv s.params.divOverflow (s.x rs1) (s.x rs2) <;> rfl

theorem rem_withInput (rd rs1 rs2 : RegIdx) :
    execRem rd rs1 rs2 (s.withInput q ended) =
      mapNext (State.withInput q ended) (execRem rd rs1 rs2 s) := by
  have hresult : aluRem (s.withInput q ended).params.remOverflow ((s.withInput q ended).x rs1)
      ((s.withInput q ended).x rs2) = aluRem s.params.remOverflow (s.x rs1) (s.x rs2) := rfl
  rw [execRem, execRem, hresult]
  cases aluRem s.params.remOverflow (s.x rs1) (s.x rs2) <;> rfl

/-- Only ECALL reads the host's input; every other instruction carries it along
(spec/60_exceptions.md R286, spec/47_system.md R261). -/
theorem exec_withInput {i : Instr} (hi : i ≠ .ecall) :
    exec i (s.withInput q ended) = mapNext (State.withInput q ended) (exec i s) := by
  cases i with
  | auipc | jal | jalr => exact transfer_withInput q ended s _ _
  | beq | bne | blt | bge | bltu | bgeu => exact branch_withInput q ended s _ _ _ _
  | lb | lh | lw | lbu | lhu => exact load_withInput q ended s _ _ _
  | sb | sh | sw => exact store_withInput q ended s _ _ _
  | div => exact div_withInput q ended s _ _ _
  | rem => exact rem_withInput q ended s _ _ _
  | ecall => exact absurd rfl hi
  | lui | addi | slti | sltiu | xori | ori | andi | slli | srli | srai
  | add | sub | sll | slt | sltu | xor | srl | sra | or | and
  | mul | mulh | mulhsu | mulhu | divu | remu | ebreak => rfl

end

/-- Settles O29: executing commutes with changing the host's input, next state and refusal alike. -/
theorem hostInputReachesOnlyEcall : Obligations.HostInputReachesOnlyEcall :=
  fun _ s q ended hi =>
    ⟨fun _ h => (exec_withInput q ended s hi).trans (congrArg (mapNext _) h),
      fun _ h => (exec_withInput q ended s hi).trans (congrArg (mapNext _) h)⟩

end Sys2Proof.Machine

/-! The proof of the family of spec/70_reset_and_hazards.md: the loader's word at `pc` is the word
fetched. -/

namespace Sys2Proof.Machine

theorem tableWord_toNat (w : Word) : tableWord 32 w.toNat = w := by
  rw [tableWord, Nat.min_self, Nat.mod_eq_of_lt w.isLt, BitVec.ofNat_toNat, BitVec.setWidth_eq]

theorem placeWord_ready (w : Word) (s : State) : (placeWord w s).Ready := ⟨rfl, rfl⟩

theorem fetchInstr_placeWord {s : State} {w : Word} {i : Instr} (hrom : s.rom.wf = true)
    (h : decodeWord w = .ok i) : fetchInstr (placeWord w s) = .ok i := by
  have hreach : wordIndex s.pc < max s.params.romWords (wordIndex s.pc + 1) := by omega
  have hword : (s.rom.setWord (wordIndex s.pc) w).wordAt (wordIndex s.pc) = w :=
    wordAt_setWord_self _ w hrom
  exact fetchInstr_of_ok hreach (hword.symm ▸ h)

/-- Settles O30: the word placed at `pc` is the one fetched, and the state is ready. -/
theorem withFetchWordRunsThatWord : Obligations.WithFetchWordRunsThatWord := by
  intro s w i hrom hdecode
  rw [State.withFetchWord, tableWord_toNat]
  exact step_of_fetch (placeWord_ready w s) (fetchInstr_placeWord hrom hdecode)

end Sys2Proof.Machine
